-- ==== Sys2Proof/Word.lean ====
section
/-! DEFINITION. The kinds of value that cross the core's boundary (00_scope.md R11), as bit vectors. -/

namespace Sys2Proof

/-- A tick count, type `uW`: a point on a circle of `2^W` points, read unsigned (R11 a, R13). -/
abbrev TickCount (W : Nat) := BitVec W

/-- A tick delta, type `iW`: a `W`-bit pattern read in two's complement (R11 b, R12). -/
abbrev TickDelta (W : Nat) := BitVec W

/-- The operation-select code of a request (30_encoding.md R50). -/
abbrev Opsel := BitVec 4

end Sys2Proof
end

