-- ==== Sys2Proof/Config.lean ====
section
/-! DEFINITION. The one implementation parameter, the width `W` of an instance (00_scope.md R7, R10).
The core has no other parameter and no free value: no rule leaves a value open (10_state.md R30). -/

namespace Sys2Proof

/-- The legal values of the parameter `W`: "Legal values: 16 and 32, no others" (R7). -/
inductive Width where
  | w16
  | w32
  deriving DecidableEq, Repr

/-- The number of bits of an instance. -/
abbrev Width.bits : Width → Nat
  | .w16 => 16
  | .w32 => 32

/-- The instance of `n` bits, if the core has one (92_eei_decisions.md D2: other widths are refused as hardware). -/
def Width.ofBits (n : Nat) : Option Width :=
  if n = 16 then some .w16 else if n = 32 then some .w32 else none

end Sys2Proof
end

