-- ==== Sys2Proof/Machine/Operands.lean ====
section
/-! DEFINITION. The two constants of an instance and the width-`W` primitives (00_scope.md R8, R9, R12, R14),
through which every operand is read and every result is formed. -/

namespace Sys2Proof.Machine

/-- `MAX_VALUE(W) = 2^W - 1`, "all bits set for width W" (00_scope.md R8). -/
def maxValue (W : Nat) : TickCount W := BitVec.allOnes W

/-- `MAX_VALUE_OVERFLOW(W) = MAX_VALUE(W) >> 1` (00_scope.md R9): the default overflow threshold. -/
def maxValueOverflow (W : Nat) : TickCount W := maxValue W >>> 1

/-- `u(v)`, the unsigned reading of a field (R13). -/
def unsigned {W : Nat} (v : BitVec W) : Nat := v.toNat

/-- `s_W(v)`, the two's-complement reading of a pattern (R12). -/
def signed {W : Nat} (v : BitVec W) : Int := if unsigned v < 2 ^ (W - 1) then unsigned v else unsigned v - 2 ^ W

/-- `pat_W(x) = x mod 2^W`, the pattern of an integer (R14). -/
def pat (W : Nat) (x : Int) : BitVec W := BitVec.ofInt W x

/-- `a +_W b` (R14). -/
def addW {W : Nat} (a b : BitVec W) : BitVec W := a + b

/-- `a -_W b` (R14). -/
def subW {W : Nat} (a b : BitVec W) : BitVec W := a - b

/-- `neg_W(a)` (R14). The core itself never negates an operand (41_adder.md R98); a caller may. -/
def negW {W : Nat} (a : BitVec W) : BitVec W := -a

/-- `zext_N(v)`: zero bits on the left (R14). R14 lists it; no rule of the core extends a value. -/
def zext {W : Nat} (N : Nat) (v : BitVec W) : BitVec N := v.setWidth N

/-- `sext_N(v)`: copies of the top bit on the left (R14). R14 lists it; no rule of the core extends a value. -/
def sext {W : Nat} (N : Nat) (v : BitVec W) : BitVec N := v.signExtend N

end Sys2Proof.Machine
end

