-- ==== Sys2Proof/Syntax.lean ====
section
/-! DEFINITION. The request as the caller presents it (the encoding view, 10_state.md R24, 30_encoding.md R50)
and the twelve operations, one constructor per row of the opcode table, each carrying exactly its own operands. -/

namespace Sys2Proof

/-- The four operand fields of a request to the instance of width `W` (10_state.md R24). -/
structure Fields (W : Nat) where
  /-- `time1`, every operation -/
  a : BitVec W
  /-- `time2`, or the two's-complement pattern of `ticks` -/
  b : BitVec W
  /-- `overflow`, for `past_raw` and `sub_raw` -/
  ovf : BitVec W
  /-- `max_value`, for `add_raw` and `sub_raw` -/
  maxv : BitVec W
  deriving DecidableEq, Repr

/-- One request, the tuple `(opsel, a, b, ovf, maxv)` of 30_encoding.md R50. The constructor is `opsel[3]`, which
names the instance and with it the width of the fields; `sel` is `opsel[2:0]`. -/
inductive Request where
  | w16 (sel : BitVec 3) (fields : Fields 16)
  | w32 (sel : BitVec 3) (fields : Fields 32)
  deriving DecidableEq, Repr

/-- The twelve operations of 30_encoding.md R52, operands in the order of the signature (R53).
`ticks` and the results of the sub forms are two's-complement patterns (00_scope.md R12). -/
inductive Instr where
  /-- `past.16(t1, t2)`, code 0x0 -/
  | past16 (time1 time2 : TickCount 16)
  /-- `past_raw.16(t1, t2, overflow)`, code 0x1 -/
  | pastRaw16 (time1 time2 overflow : TickCount 16)
  /-- `add.16(t1, ticks)`, code 0x2 -/
  | add16 (time1 : TickCount 16) (ticks : TickDelta 16)
  /-- `add_raw.16(t1, ticks, max_value)`, code 0x3 -/
  | addRaw16 (time1 : TickCount 16) (ticks : TickDelta 16) (maxValue : TickCount 16)
  /-- `sub.16(t1, t2)`, code 0x4 -/
  | sub16 (time1 time2 : TickCount 16)
  /-- `sub_raw.16(t1, t2, overflow, max_value)`, code 0x5 -/
  | subRaw16 (time1 time2 overflow maxValue : TickCount 16)
  /-- `past.32(t1, t2)`, code 0x8 -/
  | past32 (time1 time2 : TickCount 32)
  /-- `past_raw.32(t1, t2, overflow)`, code 0x9 -/
  | pastRaw32 (time1 time2 overflow : TickCount 32)
  /-- `add.32(t1, ticks)`, code 0xA -/
  | add32 (time1 : TickCount 32) (ticks : TickDelta 32)
  /-- `add_raw.32(t1, ticks, max_value)`, code 0xB -/
  | addRaw32 (time1 : TickCount 32) (ticks : TickDelta 32) (maxValue : TickCount 32)
  /-- `sub.32(t1, t2)`, code 0xC -/
  | sub32 (time1 time2 : TickCount 32)
  /-- `sub_raw.32(t1, t2, overflow, max_value)`, code 0xD -/
  | subRaw32 (time1 time2 overflow maxValue : TickCount 32)
  deriving DecidableEq, Repr

/-- The instance an operation belongs to (10_state.md R31). -/
def Instr.width : Instr → Width
  | .past16 _ _ | .pastRaw16 _ _ _ | .add16 _ _ | .addRaw16 _ _ _ | .sub16 _ _ | .subRaw16 _ _ _ _ => .w16
  | .past32 _ _ | .pastRaw32 _ _ _ | .add32 _ _ | .addRaw32 _ _ _ | .sub32 _ _ | .subRaw32 _ _ _ _ => .w32

/-- The instance a request is presented to: `opsel[3]` (30_encoding.md R51). -/
def Request.width : Request → Width
  | .w16 _ _ => .w16
  | .w32 _ _ => .w32

end Sys2Proof
end

