-- ==== Sys2Proof/WellFormed.lean ====
section
/-! DEFINITION. What is a well-formed request and a well-formed operation.
An operation is always well formed: "There are no other illegal encodings: every value of a, b, ovf and maxv is
legal for every defined operation" (30_encoding.md R56), and its operand types already have the instance's width.
A request is ill formed exactly when its code is reserved; a width is legal exactly when it is 16 or 32 (R7). -/

namespace Sys2Proof

/-- The check of the width parameter (00_scope.md R7). -/
def isCoreWidth (n : Nat) : Bool := (Width.ofBits n).isSome

/-- The check of an operation: its instance is one of the core's. It holds of every operation (R56). -/
def Instr.wellFormed (i : Instr) : Bool := isCoreWidth i.width.bits

/-- The check of a request: `opsel[2:1]` is not the reserved function 0b11 (R51, R56). -/
def Request.wellFormed : Request → Bool
  | .w16 sel _ => sel.extractLsb' 1 2 != 0b11#2
  | .w32 sel _ => sel.extractLsb' 1 2 != 0b11#2

end Sys2Proof
end

