-- ==== Sys2Proof/Decode.lean ====
section
/-! DEFINITION. From a request to an operation and back (30_encoding.md R50 to R56).
The decoder is total on requests and rejects a reserved code by name; the encoder follows it. -/

namespace Sys2Proof

/-- Why the decoder yields no operation. -/
inductive Reject where
  /-- `opsel[2:1] = 0b11`: codes 0x6, 0x7, 0xE and 0xF have no operation (R56) -/
  | reservedFunction (opsel : Opsel)
  deriving DecidableEq, Repr

/-- The function an operation-select code names (R51). -/
inductive Fn where
  | past
  | add
  | sub
  deriving DecidableEq, Repr

/-- `opsel[3]`, sub-field `width` (R51). -/
def opselWidth (o : Opsel) : Width :=
  match o.getLsbD 3 with
  | false => .w16
  | true => .w32

/-- `opsel[2:1]`, sub-field `fn`; 0b11 is reserved (R51). -/
def opselFn (o : Opsel) : Option Fn :=
  match o.extractLsb' 1 2 with
  | 0b00#2 => some .past
  | 0b01#2 => some .add
  | 0b10#2 => some .sub
  | _ => none

/-- `opsel[0]`, sub-field `raw`: 1 selects the generic form (R51). -/
def opselRaw (o : Opsel) : Bool := o.getLsbD 0

/-- The whole 4-bit code of a request: the width bit above `opsel[2:0]` (R51). -/
def Request.opsel : Request → Opsel
  | .w16 sel _ => 0b0#1 ++ sel
  | .w32 sel _ => 0b1#1 ++ sel

/-- The operation of the 16-bit instance, its operands taken from the fields R53 assigns to it. -/
def decode16 (fn : Fn) (raw : Bool) (f : Fields 16) : Instr :=
  match fn, raw with
  | .past, false => .past16 f.a f.b
  | .past, true => .pastRaw16 f.a f.b f.ovf
  | .add, false => .add16 f.a f.b
  | .add, true => .addRaw16 f.a f.b f.maxv
  | .sub, false => .sub16 f.a f.b
  | .sub, true => .subRaw16 f.a f.b f.ovf f.maxv

/-- The operation of the 32-bit instance, its operands taken from the fields R53 assigns to it. -/
def decode32 (fn : Fn) (raw : Bool) (f : Fields 32) : Instr :=
  match fn, raw with
  | .past, false => .past32 f.a f.b
  | .past, true => .pastRaw32 f.a f.b f.ovf
  | .add, false => .add32 f.a f.b
  | .add, true => .addRaw32 f.a f.b f.maxv
  | .sub, false => .sub32 f.a f.b
  | .sub, true => .subRaw32 f.a f.b f.ovf f.maxv

/-- The decoder: R52's table read through R51's sub-fields. -/
def decode : Request → Except Reject Instr
  | .w16 sel f =>
    match opselFn (0b0#1 ++ sel) with
    | some fn => .ok (decode16 fn (opselRaw (0b0#1 ++ sel)) f)
    | none => .error (.reservedFunction (0b0#1 ++ sel))
  | .w32 sel f =>
    match opselFn (0b1#1 ++ sel) with
    | some fn => .ok (decode32 fn (opselRaw (0b1#1 ++ sel)) f)
    | none => .error (.reservedFunction (0b1#1 ++ sel))

/-- The operation-select code of each operation, as the table of R52 lists them. -/
def Instr.code : Instr → Opsel
  | .past16 _ _ => 0x0#4
  | .pastRaw16 _ _ _ => 0x1#4
  | .add16 _ _ => 0x2#4
  | .addRaw16 _ _ _ => 0x3#4
  | .sub16 _ _ => 0x4#4
  | .subRaw16 _ _ _ _ => 0x5#4
  | .past32 _ _ => 0x8#4
  | .pastRaw32 _ _ _ => 0x9#4
  | .add32 _ _ => 0xA#4
  | .addRaw32 _ _ _ => 0xB#4
  | .sub32 _ _ => 0xC#4
  | .subRaw32 _ _ _ _ => 0xD#4

/-- The encoder, with `x` in the field `ovf` and `y` in the field `maxv` wherever the operation ignores that field
(R53, R55: a caller may leave an ignored field at any value; the 16-bit instance takes the low half of `x` and `y`). -/
def encodeWith (x y : BitVec 32) (i : Instr) : Request :=
  let x' := x.setWidth 16
  let y' := y.setWidth 16
  match i with
  | .past16 t1 t2 => .w16 0b000#3 ⟨t1, t2, x', y'⟩
  | .pastRaw16 t1 t2 ovf => .w16 0b001#3 ⟨t1, t2, ovf, y'⟩
  | .add16 t1 k => .w16 0b010#3 ⟨t1, k, x', y'⟩
  | .addRaw16 t1 k mx => .w16 0b011#3 ⟨t1, k, x', mx⟩
  | .sub16 t1 t2 => .w16 0b100#3 ⟨t1, t2, x', y'⟩
  | .subRaw16 t1 t2 ovf mx => .w16 0b101#3 ⟨t1, t2, ovf, mx⟩
  | .past32 t1 t2 => .w32 0b000#3 ⟨t1, t2, x, y⟩
  | .pastRaw32 t1 t2 ovf => .w32 0b001#3 ⟨t1, t2, ovf, y⟩
  | .add32 t1 k => .w32 0b010#3 ⟨t1, k, x, y⟩
  | .addRaw32 t1 k mx => .w32 0b011#3 ⟨t1, k, x, mx⟩
  | .sub32 t1 t2 => .w32 0b100#3 ⟨t1, t2, x, y⟩
  | .subRaw32 t1 t2 ovf mx => .w32 0b101#3 ⟨t1, t2, ovf, mx⟩

/-- The encoder. DESIGN CHOICE (log entry 13): zero in every ignored field. -/
def encode (i : Instr) : Request := encodeWith 0#32 0#32 i

/-- The fields with `ovf` kept only if `used.1`, and `maxv` only if `used.2`; zero otherwise. -/
def Fields.keep {W : Nat} (used : Bool × Bool) (f : Fields W) : Fields W :=
  { f with ovf := if used.1 then f.ovf else 0#W, maxv := if used.2 then f.maxv else 0#W }

/-- Whether an operation uses the field `ovf` and the field `maxv`: the two columns of R53's table. -/
def usedFields (fn : Fn) (raw : Bool) : Bool × Bool :=
  match fn, raw with
  | .past, true => (true, false)
  | .add, true => (false, true)
  | .sub, true => (true, true)
  | _, false => (false, false)

/-- A request with every field its operation ignores set to zero (R53, R55); a reserved request is left alone. -/
def Request.clearIgnored : Request → Request
  | .w16 sel f =>
    match opselFn (0b0#1 ++ sel) with
    | some fn => .w16 sel (f.keep (usedFields fn (opselRaw (0b0#1 ++ sel))))
    | none => .w16 sel f
  | .w32 sel f =>
    match opselFn (0b1#1 ++ sel) with
    | some fn => .w32 sel (f.keep (usedFields fn (opselRaw (0b1#1 ++ sel))))
    | none => .w32 sel f

/-- The request with code `o` and every operand field zero. -/
def Request.ofOpsel (o : Opsel) : Request :=
  match opselWidth o with
  | .w16 => .w16 (o.extractLsb' 0 3) ⟨0#16, 0#16, 0#16, 0#16⟩
  | .w32 => .w32 (o.extractLsb' 0 3) ⟨0#32, 0#32, 0#32, 0#32⟩

/-- The request a table word stands for: the table numbers the bits of `opsel` alone (bit 0 the least significant,
30_encoding.md R50), so only bits 3..0 of the word carry anything and the operand fields are zero (log entry 4). -/
def tableRequest (nbits w : Nat) : Request := Request.ofOpsel (BitVec.ofNat 4 (w % 2 ^ nbits))

/-- The operation the decoder reads from a table word. -/
def decodeTableWord (nbits w : Nat) : Option Instr := (decode (tableRequest nbits w)).toOption

end Sys2Proof
end

