-- ==== Sys2Proof/Machine/State.lean ====
section
/-! DEFINITION. What the machine of this row holds between steps. The core itself has no architectural state
(10_state.md R20); the two fields below are its boundary, the request presented and the response (R24), which the
interface of Host/Core.lean needs a place for (log entry 1). -/

namespace Sys2Proof.Machine

/-- A response: the single field `res`, as wide as the instance that answered (10_state.md R24, 30_encoding.md R60). -/
inductive Response where
  | w16 (res : BitVec 16)
  | w32 (res : BitVec 32)
  deriving DecidableEq, Repr

/-- The instance a response comes from. -/
def Response.width : Response → Width
  | .w16 _ => .w16
  | .w32 _ => .w32

/-- The core's boundary. No evaluation reads `response`. -/
structure State where
  /-- the request the caller presents: every field is a definite bit vector at all times (D3, D19) -/
  request : Request
  /-- the response to that request once its evaluation has ended (70_reset_and_hazards.md R183) -/
  response : Option Response
  deriving DecidableEq, Repr

/-- Why the machine could stop with a fault: never. "No exceptions, error codes, or fault states exist in this core"
(60_exceptions.md R160), so there is no constructor. Raised by nobody; safe. -/
inductive Fault where
  deriving DecidableEq, Repr

/-- Why a step gives no response. -/
inductive Refusal where
  /-- An operation that has no meaning yet. Raised only by an arm of `exec`; safe. No arm raises it now. -/
  | notModelled (mnemonic : String)
  /-- The presented `opsel` is reserved: "this spec gives a reserved code no response at all" (30_encoding.md R56).
  Raised by `step`, for codes 0x6, 0x7, 0xE and 0xF only; safe. -/
  | reservedOpsel (opsel : Opsel)
  deriving DecidableEq, Repr

/-- Right after reset: no evaluation has ended, so there is no response (log entry 3); and, DESIGN CHOICE (log entry 2,
unsafe), the caller presents the request of all zeros. -/
def State.reset : State where
  request := .w16 0#3 ⟨0#16, 0#16, 0#16, 0#16⟩
  response := none

end Sys2Proof.Machine
end

