-- ==== Sys2Proof/Machine/Ops.lean ====
section
/-! DEFINITION. The operations over the boundary: presenting a request, taking it up, delivering a response.
There is no memory, no register file, no exception entry and no return from one (20_memory.md R40, 10_state.md R21,
60_exceptions.md R164, R165), so there is no operation for them. -/

namespace Sys2Proof.Machine

/-- The caller presents a request (00_scope.md R6). An evaluation begins here (70_reset_and_hazards.md R183), so there is
no response to it yet; DESIGN CHOICE (log entry 5). -/
def State.present (r : Request) (s : State) : State := { s with request := r, response := none }

/-- The request the next step evaluates: the one presented (20_memory.md R49). -/
def State.fetch (s : State) : Request := s.request

/-- The evaluation ends with its response (R183) and changes nothing else (20_memory.md R43). -/
def State.deliver (v : Response) (s : State) : State := { s with response := some v }

/-- What every operation does with its result: deliver it, with no fault and no side effect (60_exceptions.md R160). -/
def respond (v : Response) (s : State) : Host.Outcome State Fault Refusal := .next (s.deliver v)

/-- The refusal a decoder's rejection leads to (30_encoding.md R56). -/
def refusalOf : Reject → Refusal
  | .reservedFunction o => .reservedOpsel o

end Sys2Proof.Machine
end

