-- ==== Sys2Proof/Machine/Adder.lean ====
section
/-! DEFINITION. The wrapped_tick_adder: `add_raw` and `add` (41_adder.md). -/

namespace Sys2Proof.Machine

/-- The normalisation loop of R90 as the document words it: from `r`, after `n` rounds of `r := r - (max_value + 1)`, each
taken because `r > max_value` (unsigned), the loop stops at `res`. All arithmetic is `W` bits wide; in a round that is
taken it is exact (R90). The meaning of `add_raw` uses the loop's closed form (R92); that the two agree is a claim. -/
inductive NormalizeLoop {W : Nat} (mx : TickCount W) : BitVec W → Nat → BitVec W → Prop where
  | stop (r : BitVec W) : r ≤ mx → NormalizeLoop mx r 0 r
  | round (r : BitVec W) (n : Nat) (res : BitVec W) :
      mx < r → NormalizeLoop mx (r - (mx + 1#W)) n res → NormalizeLoop mx r (n + 1) res

/-- Where the loop of R90 stops: "the single expression r0 mod (max_value + 1) evaluated on unbounded integers" (R92).
The divisor is at least 1 and `max_value` all ones leaves `r0` alone. -/
def normalize {W : Nat} (r0 mx : TickCount W) : TickCount W := BitVec.ofNat W (unsigned r0 % (unsigned mx + 1))

/-- `add_raw(time1, ticks, max_value)` (R90): the sum in the native width `W`, 16 or 32 alike (D9, log entry 8),
then normalised into `[0, max_value]`. -/
def addRaw {W : Nat} (time1 : TickCount W) (ticks : TickDelta W) (mx : TickCount W) : TickCount W :=
  normalize (addW time1 ticks) mx

/-- `add(time1, ticks)`: "ordinary wrapping addition modulo 2^W" (R91). -/
def add {W : Nat} (time1 : TickCount W) (ticks : TickDelta W) : TickCount W := addW time1 ticks

/-- `add.16` (R91, code 0x2). -/
def execAdd16 (time1 : TickCount 16) (ticks : TickDelta 16) (s : State) : Host.Outcome State Fault Refusal :=
  respond (.w16 (add time1 ticks)) s

/-- `add_raw.16` (R90, code 0x3). -/
def execAddRaw16 (time1 : TickCount 16) (ticks : TickDelta 16) (mx : TickCount 16) (s : State) :
    Host.Outcome State Fault Refusal :=
  respond (.w16 (addRaw time1 ticks mx)) s

/-- `add.32` (R91, code 0xA). -/
def execAdd32 (time1 : TickCount 32) (ticks : TickDelta 32) (s : State) : Host.Outcome State Fault Refusal :=
  respond (.w32 (add time1 ticks)) s

/-- `add_raw.32` (R90, code 0xB). -/
def execAddRaw32 (time1 : TickCount 32) (ticks : TickDelta 32) (mx : TickCount 32) (s : State) :
    Host.Outcome State Fault Refusal :=
  respond (.w32 (addRaw time1 ticks mx)) s

end Sys2Proof.Machine
end

