-- ==== Sys2Proof/Machine/Flags.lean ====
section
/-! DEFINITION. The core has no flags and no condition codes (10_state.md R23): nothing here reads or writes one.
What stands in their place is the boolean an ordering operation returns, and how it appears on `res`. -/

namespace Sys2Proof.Machine

/-- `b2v_W(p)`: the `W`-bit value 1 for true and 0 for false (00_scope.md R14, 30_encoding.md R60). -/
def b2v (W : Nat) (p : Bool) : BitVec W := if p then 1#W else 0#W

end Sys2Proof.Machine
end

