-- ==== Sys2Proof/Machine/Comparator.lean ====
section
/-! DEFINITION. The wrapped_tick_comparator: `past_raw` and `past` (40_comparator.md). -/

namespace Sys2Proof.Machine

/-- `past_raw(time1, time2, overflow)` (R70). The two inequalities are strict and are not to be symmetrized; equal
operands take the first branch (90_conflicts.md C1, log entry 9). -/
def pastRaw {W : Nat} (time1 time2 overflow : TickCount W) : Bool :=
  let t1 := unsigned time1
  let t2 := unsigned time2
  let ovf := unsigned overflow
  if t1 ≤ t2 then decide (t2 - t1 < ovf) else decide (t1 - t2 > ovf)

/-- `past(time1, time2)` = `past_raw(time1, time2, half_range_overflow)` (R71). -/
def past {W : Nat} (time1 time2 : TickCount W) : Bool := pastRaw time1 time2 (maxValueOverflow W)

/-- `past.16` (R71, code 0x0). -/
def execPast16 (time1 time2 : TickCount 16) (s : State) : Host.Outcome State Fault Refusal :=
  respond (.w16 (b2v 16 (past time1 time2))) s

/-- `past_raw.16` (R70, code 0x1). -/
def execPastRaw16 (time1 time2 overflow : TickCount 16) (s : State) : Host.Outcome State Fault Refusal :=
  respond (.w16 (b2v 16 (pastRaw time1 time2 overflow))) s

/-- `past.32` (R71, code 0x8). -/
def execPast32 (time1 time2 : TickCount 32) (s : State) : Host.Outcome State Fault Refusal :=
  respond (.w32 (b2v 32 (past time1 time2))) s

/-- `past_raw.32` (R70, code 0x9). -/
def execPastRaw32 (time1 time2 overflow : TickCount 32) (s : State) : Host.Outcome State Fault Refusal :=
  respond (.w32 (b2v 32 (pastRaw time1 time2 overflow))) s

end Sys2Proof.Machine
end

