-- ==== Sys2Proof/Machine/Subtractor.lean ====
section
/-! DEFINITION. The wrapped_tick_subtractor: `sub_raw` and `sub` (42_subtractor.md). -/

namespace Sys2Proof.Machine

/-- The unbounded integer `v` of R110, in its four arms. -/
def subRawValue {W : Nat} (time1 time2 overflow mx : TickCount W) : Int :=
  let t1 := unsigned time1
  let t2 := unsigned time2
  let ovf := unsigned overflow
  let m : Int := unsigned mx + 1
  if t1 ≥ t2 then
    let diff := t1 - t2
    if diff > ovf then (diff : Int) - m else diff
  else
    let diff := t2 - t1
    if diff > ovf then m - (diff : Int) else -(diff : Int)

/-- `sub_raw(time1, time2, overflow, max_value)` (R110): `pat_W(v)`, so a `v` that does not fit in `iW` is delivered
modulo `2^W` (R113, D8, log entry 7). -/
def subRaw {W : Nat} (time1 time2 overflow mx : TickCount W) : TickDelta W :=
  pat W (subRawValue time1 time2 overflow mx)

/-- `sub(time1, time2)`: "ordinary two's-complement subtraction" (R111). -/
def sub {W : Nat} (time1 time2 : TickCount W) : TickDelta W := subW time1 time2

/-- `sub.16` (R111, code 0x4). -/
def execSub16 (time1 time2 : TickCount 16) (s : State) : Host.Outcome State Fault Refusal :=
  respond (.w16 (sub time1 time2)) s

/-- `sub_raw.16` (R110, code 0x5). -/
def execSubRaw16 (time1 time2 overflow mx : TickCount 16) (s : State) : Host.Outcome State Fault Refusal :=
  respond (.w16 (subRaw time1 time2 overflow mx)) s

/-- `sub.32` (R111, code 0xC). -/
def execSub32 (time1 time2 : TickCount 32) (s : State) : Host.Outcome State Fault Refusal :=
  respond (.w32 (sub time1 time2)) s

/-- `sub_raw.32` (R110, code 0xD). -/
def execSubRaw32 (time1 time2 overflow mx : TickCount 32) (s : State) : Host.Outcome State Fault Refusal :=
  respond (.w32 (subRaw time1 time2 overflow mx)) s

end Sys2Proof.Machine
end

