-- ==== Sys2Proof/Machine/Dispatch.lean ====
section
/-! DEFINITION. One arm per operation of 30_encoding.md R52, in the table's order. -/

namespace Sys2Proof.Machine

def exec (i : Instr) (s : State) : Host.Outcome State Fault Refusal :=
  match i with
  | .past16 t1 t2 => Sys2Proof.Machine.execPast16 t1 t2 s
  | .pastRaw16 t1 t2 ovf => Sys2Proof.Machine.execPastRaw16 t1 t2 ovf s
  | .add16 t1 k => Sys2Proof.Machine.execAdd16 t1 k s
  | .addRaw16 t1 k mx => Sys2Proof.Machine.execAddRaw16 t1 k mx s
  | .sub16 t1 t2 => Sys2Proof.Machine.execSub16 t1 t2 s
  | .subRaw16 t1 t2 ovf mx => Sys2Proof.Machine.execSubRaw16 t1 t2 ovf mx s
  | .past32 t1 t2 => Sys2Proof.Machine.execPast32 t1 t2 s
  | .pastRaw32 t1 t2 ovf => Sys2Proof.Machine.execPastRaw32 t1 t2 ovf s
  | .add32 t1 k => Sys2Proof.Machine.execAdd32 t1 k s
  | .addRaw32 t1 k mx => Sys2Proof.Machine.execAddRaw32 t1 k mx s
  | .sub32 t1 t2 => Sys2Proof.Machine.execSub32 t1 t2 s
  | .subRaw32 t1 t2 ovf mx => Sys2Proof.Machine.execSubRaw32 t1 t2 ovf mx s

end Sys2Proof.Machine
end

