-- ==== Sys2Proof/Machine/Step.lean ====
section
/-! DEFINITION. One step: the evaluation of the presented request (92_eei_decisions.md D1). -/

namespace Sys2Proof.Machine

/-- One evaluation: decode the presented request and run its operation; a reserved code is refused (30_encoding.md R56). -/
def step (s : State) : Host.Outcome State Fault Refusal :=
  match decode s.fetch with
  | .ok i => exec i s
  | .error e => .refused (refusalOf e)

/-- `s` with the request of a table word presented, so that the next step evaluates it (log entry 4). -/
def State.withFetchWord (s : State) (nbits w : Nat) : State := s.present (tableRequest nbits w)

end Sys2Proof.Machine
end

