-- ==== Sys2Proof/Machine/Caller.lean ====
section
/-! DEFINITION. The caller's side of the boundary (00_scope.md R6): presenting requests one after another, and reading a
response under its operation's result type. None of it is state of the core (30_encoding.md R58). -/

namespace Sys2Proof.Machine

/-- One request presented and evaluated (70_reset_and_hazards.md R183). -/
def evaluate (r : Request) (s : State) : Host.Outcome State Fault Refusal := step (s.present r)

/-- A caller-side sequence of operations; its end state is the list of its responses (R183). DESIGN CHOICE (log entry 20):
a list that holds a request with a reserved code ends refused as a whole, by the refusal of the first such request; the
responses before it are not reported and no later request is presented. R56 gives that one request no response and R183
speaks of operations only: the spec says nothing of such a list. -/
def evaluateAll : List Request → State → Host.Outcome (List Response) Fault Refusal
  | [], _ => .next []
  | r :: rs, s =>
    match evaluate r s with
    | .next s' =>
      match evaluateAll rs s' with
      | .next vs => .next (s'.response.toList ++ vs)
      | .fault f => .fault f
      | .refused e => .refused e
    | .fault f => .fault f
    | .refused e => .refused e

/-- The result types of the twelve operations (30_encoding.md R52). -/
inductive ResultType where
  | bool
  | tickCount
  | tickDelta
  deriving DecidableEq, Repr

/-- The result type in an operation's signature (R52, R60). -/
def resultType : Instr → ResultType
  | .past16 _ _ | .pastRaw16 _ _ _ | .past32 _ _ | .pastRaw32 _ _ _ => .bool
  | .add16 _ _ | .addRaw16 _ _ _ | .add32 _ _ | .addRaw32 _ _ _ => .tickCount
  | .sub16 _ _ | .subRaw16 _ _ _ _ | .sub32 _ _ | .subRaw32 _ _ _ _ => .tickDelta

/-- What a response means to the caller. -/
inductive Reading where
  | truth (p : Bool)
  | count (n : Nat)
  | delta (d : Int)
  deriving DecidableEq, Repr

/-- The reading of a `W`-bit pattern: `res[0]` is the boolean, an add result is unsigned, a sub result is read
with `s_W` (30_encoding.md R60). -/
def readPattern {W : Nat} (ty : ResultType) (res : BitVec W) : Reading :=
  match ty with
  | .bool => .truth (res.getLsbD 0)
  | .tickCount => .count (unsigned res)
  | .tickDelta => .delta (signed res)

/-- How the caller reads the response to an operation (R60). -/
def readResponse (i : Instr) : Response → Reading
  | .w16 res => readPattern (resultType i) res
  | .w32 res => readPattern (resultType i) res

end Sys2Proof.Machine
end

