-- ==== Sys2Proof/Machine/Text.lean ====
section
/-! DEFINITION. The textual form of an operation (30_encoding.md R58), with the names of 00_scope.md R16. -/

namespace Sys2Proof.Machine

/-- The name with its width suffix (R16). -/
def mnemonic : Instr → String
  | .past16 _ _ => "past.16"
  | .pastRaw16 _ _ _ => "past_raw.16"
  | .add16 _ _ => "add.16"
  | .addRaw16 _ _ _ => "add_raw.16"
  | .sub16 _ _ => "sub.16"
  | .subRaw16 _ _ _ _ => "sub_raw.16"
  | .past32 _ _ => "past.32"
  | .pastRaw32 _ _ _ => "past_raw.32"
  | .add32 _ _ => "add.32"
  | .addRaw32 _ _ _ => "add_raw.32"
  | .sub32 _ _ => "sub.32"
  | .subRaw32 _ _ _ _ => "sub_raw.32"

/-- An unsigned operand as a number. -/
def unsignedNumber {W : Nat} (v : BitVec W) : Int := unsigned v

/-- The operands as numbers, in the order of the signature; `ticks` is signed, every other operand unsigned (R58). -/
def operandNumbers : Instr → List Int
  | .past16 t1 t2 | .sub16 t1 t2 => [unsignedNumber t1, unsignedNumber t2]
  | .pastRaw16 t1 t2 ovf => [unsignedNumber t1, unsignedNumber t2, unsignedNumber ovf]
  | .add16 t1 k => [unsignedNumber t1, signed k]
  | .addRaw16 t1 k mx => [unsignedNumber t1, signed k, unsignedNumber mx]
  | .subRaw16 t1 t2 ovf mx => [unsignedNumber t1, unsignedNumber t2, unsignedNumber ovf, unsignedNumber mx]
  | .past32 t1 t2 | .sub32 t1 t2 => [unsignedNumber t1, unsignedNumber t2]
  | .pastRaw32 t1 t2 ovf => [unsignedNumber t1, unsignedNumber t2, unsignedNumber ovf]
  | .add32 t1 k => [unsignedNumber t1, signed k]
  | .addRaw32 t1 k mx => [unsignedNumber t1, signed k, unsignedNumber mx]
  | .subRaw32 t1 t2 ovf mx => [unsignedNumber t1, unsignedNumber t2, unsignedNumber ovf, unsignedNumber mx]

/-- `name(operand, operand, ...)`, the operands in decimal (R58). -/
def text (i : Instr) : String :=
  mnemonic i ++ "(" ++ ", ".intercalate ((operandNumbers i).map toString) ++ ")"

end Sys2Proof.Machine
end

