-- ==== Sys2Proof/Safety.lean ====
section
/-! DEFINITION. The terms claims use: the twelve operations named by width, what it is for an operation to answer, the
invariant of the boundary, and the caller's contract (70_reset_and_hazards.md R184). -/

namespace Sys2Proof

/-- `past_W` (00_scope.md R16). -/
def Instr.past : (w : Width) → (t1 t2 : TickCount w.bits) → Instr
  | .w16, t1, t2 => .past16 t1 t2
  | .w32, t1, t2 => .past32 t1 t2

/-- `past_raw_W` (R16). -/
def Instr.pastRaw : (w : Width) → (t1 t2 ovf : TickCount w.bits) → Instr
  | .w16, t1, t2, ovf => .pastRaw16 t1 t2 ovf
  | .w32, t1, t2, ovf => .pastRaw32 t1 t2 ovf

/-- `add_W` (R16). -/
def Instr.add : (w : Width) → (t1 : TickCount w.bits) → (k : TickDelta w.bits) → Instr
  | .w16, t1, k => .add16 t1 k
  | .w32, t1, k => .add32 t1 k

/-- `add_raw_W` (R16). -/
def Instr.addRaw : (w : Width) → (t1 : TickCount w.bits) → (k : TickDelta w.bits) → (mx : TickCount w.bits) → Instr
  | .w16, t1, k, mx => .addRaw16 t1 k mx
  | .w32, t1, k, mx => .addRaw32 t1 k mx

/-- `sub_W` (R16). -/
def Instr.sub : (w : Width) → (t1 t2 : TickCount w.bits) → Instr
  | .w16, t1, t2 => .sub16 t1 t2
  | .w32, t1, t2 => .sub32 t1 t2

/-- `sub_raw_W` (R16). -/
def Instr.subRaw : (w : Width) → (t1 t2 ovf mx : TickCount w.bits) → Instr
  | .w16, t1, t2, ovf, mx => .subRaw16 t1 t2 ovf mx
  | .w32, t1, t2, ovf, mx => .subRaw32 t1 t2 ovf mx

/-- The request to instance `w` with `opsel[2:0] = sel`. -/
def Request.of : (w : Width) → (sel : BitVec 3) → Fields w.bits → Request
  | .w16, sel, f => .w16 sel f
  | .w32, sel, f => .w32 sel f

/-- The 4-bit code with width bit `w` and `opsel[2:0] = sel` (30_encoding.md R51). -/
def opselOf : (w : Width) → (sel : BitVec 3) → Opsel
  | .w16, sel => 0b0#1 ++ sel
  | .w32, sel => 0b1#1 ++ sel

namespace Machine

/-- The response `res = v` of instance `w`. -/
def Response.of : (w : Width) → BitVec w.bits → Response
  | .w16, v => .w16 v
  | .w32, v => .w32 v

/-- From EVERY state the operation `i` completes, its response is `res = v` of instance `w`, and nothing else changes
(the request stays as it was). Since there is nothing else in a state, this is result, completion and frame in one. -/
def Answers (w : Width) (i : Instr) (v : BitVec w.bits) : Prop :=
  ∀ s : State, exec i s = .next { s with response := some (Response.of w v) }

/-- The request `r`, presented at any state whatever, is answered by `v`, and only the boundary's two fields are set. -/
def AnsweredBy (r : Request) (v : Response) : Prop :=
  ∀ s : State, evaluate r s = .next { request := r, response := some v }

/-- A safe step: it ends in a next state. -/
def Runs (s : State) : Prop := ∃ t : State, step s = .next t

/-- What is true of every response to an operation, whichever state it was evaluated at: the width of its instance, a
boolean of 0 or 1, a tick count inside the modulus, a difference that leads from `time2` back to `time1`. -/
def Fits : Instr → Response → Prop
  | .past16 _ _, v | .pastRaw16 _ _ _, v => v = .w16 0#16 ∨ v = .w16 1#16
  | .past32 _ _, v | .pastRaw32 _ _ _, v => v = .w32 0#32 ∨ v = .w32 1#32
  | .add16 t1 k, v => ∃ x, v = .w16 x ∧ x - t1 = k
  | .add32 t1 k, v => ∃ x, v = .w32 x ∧ x - t1 = k
  | .addRaw16 _ _ mx, v => ∃ x, v = .w16 x ∧ x ≤ mx
  | .addRaw32 _ _ mx, v => ∃ x, v = .w32 x ∧ x ≤ mx
  | .sub16 t1 t2, v => ∃ x, v = .w16 x ∧ t2 + x = t1
  | .sub32 t1 t2, v => ∃ x, v = .w32 x ∧ t2 + x = t1
  | .subRaw16 t1 t2 _ mx, v => ∃ x, v = .w16 x ∧ (mx = maxValue 16 → t2 + x = t1) ∧ (t1 = t2 → x = 0#16)
  | .subRaw32 t1 t2 _ mx, v => ∃ x, v = .w32 x ∧ (mx = maxValue 32 → t2 + x = t1) ∧ (t1 = t2 → x = 0#32)

/-- The invariant of the boundary: a response that stands there answers the request that stands there. -/
def State.Inv (s : State) : Prop :=
  ∀ v, s.response = some v → ∃ i, decode s.request = .ok i ∧ Fits i v

/-- The distance precondition of `past_raw` and `past` in its exact form (70_reset_and_hazards.md R185): the true elapsed
distance is `e`, the counter's modulus `m`, the threshold `ovf`. -/
def PastContract (m ovf e : Nat) : Prop := 0 < e ∧ e < ovf ∧ ovf ≤ m / 2

/-- The conditions of 42_subtractor.md R115: both tick counts inside the modulus, and the document's default relation
`overflow = floor(max_value / 2)` (00_scope.md R9). -/
def SubContract {W : Nat} (t1 t2 ovf mx : TickCount W) : Prop :=
  t1 ≤ mx ∧ t2 ≤ mx ∧ ovf.toNat = mx.toNat / 2

end Machine

end Sys2Proof
end

