-- ==== Sys2Proof/Certificates/Slice0/Obligations.lean ====
section
/-! DEFINITION. The statements for the provers. Each holds at both widths: `w` ranges over the two instances.
`Answers w i v` (Safety.lean) says that from every state `exec i` answers the next state that differs only in holding the
response `v`. Where a rule of the spec is marked '[derived: ...]', an inference of the spec's own, the statement says so. -/

open Sys2Proof Sys2Proof.Machine

namespace Sys2Proof

/-- The integer of 42_subtractor.md R112: `D` if it lies within the threshold, else `D` folded by one modulus. -/
def foldedDistance {W : Nat} (t1 t2 ovf mx : TickCount W) : Int :=
  let D : Int := (t1.toNat : Int) - t2.toNat
  let m : Int := mx.toNat + 1
  if -(ovf.toNat : Int) ≤ D ∧ D ≤ ovf.toNat then D else if D > ovf.toNat then D - m else D + m

/-- Two requests get the same response, whatever states they are evaluated at. -/
def SameResponse (r r' : Request) : Prop := ∃ v, AnsweredBy r v ∧ AnsweredBy r' v

end Sys2Proof

/-! ## The constants and the parameter (00_scope.md) -/

/-- 00_scope.md R8 and R9: the two constants at both widths. -/
def Obligations.ConstantsHaveTheirValues : Prop :=
  (∀ w : Width, (maxValue w.bits).toNat = 2 ^ w.bits - 1) ∧
  maxValue 16 = 0xFFFF#16 ∧ maxValue 32 = 0xFFFFFFFF#32 ∧
  (∀ w : Width, maxValueOverflow w.bits = maxValue w.bits >>> 1 ∧
    (maxValueOverflow w.bits).toNat = (maxValue w.bits).toNat / 2 ∧
    (maxValueOverflow w.bits).toNat = 2 ^ (w.bits - 1) - 1) ∧
  maxValueOverflow 16 = 0x7FFF#16 ∧ maxValueOverflow 32 = 0x7FFFFFFF#32

/-- 00_scope.md R7: the instances are those of width 16 and 32 and no others. -/
def Obligations.OnlyWidthsSixteenAndThirtyTwo : Prop :=
  ∀ n : Nat, (∃ w : Width, w.bits = n) ↔ (n = 16 ∨ n = 32)

/-- The two's-complement reading and its inverse: the formula of 00_scope.md R12 (marked there as general knowledge) and
the two identities of R14, of the model's `signed` and `pat`. -/
def Obligations.PatternAndSignedReadingAgree : Prop :=
  ∀ (w : Width),
    (∀ v : BitVec w.bits,
      (v.toNat < 2 ^ (w.bits - 1) → signed v = v.toNat) ∧
      (2 ^ (w.bits - 1) ≤ v.toNat → signed v = (v.toNat : Int) - 2 ^ w.bits) ∧
      pat w.bits (signed v) = v) ∧
    (∀ x : Int, ((pat w.bits x).toNat : Int) = x % 2 ^ w.bits) ∧
    (∀ x : Int, signed (pat w.bits x) = x ↔ (-(2 ^ (w.bits - 1)) ≤ x ∧ x ≤ 2 ^ (w.bits - 1) - 1))

/-! ## Encoding (30_encoding.md) -/

/-- 30_encoding.md R52: the complete map from `opsel` to operation, the operands in the fields of R53. -/
def Obligations.OpselTableDecodes : Prop :=
  ∀ (w : Width) (a b ovf maxv : BitVec w.bits),
    decode (.of w 0b000#3 ⟨a, b, ovf, maxv⟩) = .ok (.past w a b) ∧
    decode (.of w 0b001#3 ⟨a, b, ovf, maxv⟩) = .ok (.pastRaw w a b ovf) ∧
    decode (.of w 0b010#3 ⟨a, b, ovf, maxv⟩) = .ok (.add w a b) ∧
    decode (.of w 0b011#3 ⟨a, b, ovf, maxv⟩) = .ok (.addRaw w a b maxv) ∧
    decode (.of w 0b100#3 ⟨a, b, ovf, maxv⟩) = .ok (.sub w a b) ∧
    decode (.of w 0b101#3 ⟨a, b, ovf, maxv⟩) = .ok (.subRaw w a b ovf maxv) ∧
    decode (.of w 0b110#3 ⟨a, b, ovf, maxv⟩) = .error (.reservedFunction (opselOf w 0b110#3)) ∧
    decode (.of w 0b111#3 ⟨a, b, ovf, maxv⟩) = .error (.reservedFunction (opselOf w 0b111#3)) ∧
    (∀ sel f, (Request.of w sel f).opsel = opselOf w sel)

/-- A few codes of R52's table as whole 4-bit words, with operand fields of zeros. -/
def Obligations.SampleCodesDecode : Prop :=
  decodeTableWord 8 0x0 = some (.past16 0#16 0#16) ∧
  decodeTableWord 8 0x3 = some (.addRaw16 0#16 0#16 0#16) ∧
  decodeTableWord 8 0x5 = some (.subRaw16 0#16 0#16 0#16 0#16) ∧
  decodeTableWord 8 0x9 = some (.pastRaw32 0#32 0#32 0#32) ∧
  decodeTableWord 8 0xA = some (.add32 0#32 0#32) ∧
  decodeTableWord 8 0xC = some (.sub32 0#32 0#32) ∧
  decodeTableWord 8 0x6 = none ∧ decodeTableWord 8 0xF = none

/-- Decoding an encoded operation gives it back with every operand, whatever stands in the fields it ignores. -/
def Obligations.DecodeUndoesEncode : Prop :=
  ∀ (i : Instr) (x y : BitVec 32), decode (encodeWith x y i) = .ok i ∧ (encodeWith x y i).opsel = i.code

/-- Encoding a decoded request gives it back, up to the fields the operation ignores. That `encode` puts zero in those
fields is the model's choice (log entry 13, DESIGN CHOICE); the spec lets a caller leave them at any value. -/
def Obligations.EncodeUndoesDecode : Prop :=
  ∀ (r : Request) (i : Instr), decode r = .ok i → encode i = r.clearIgnored ∧ i.code = r.opsel

/-- No two operations of the table share a code. -/
def Obligations.NoTwoOperationsShareACode : Prop :=
  ∀ i j : Instr, i.code = j.code → mnemonic i = mnemonic j ∧ i.width = j.width

/-- 30_encoding.md R56: a reserved code is refused whatever its fields hold, with no response; nothing else
is refused, every other code runs with any operand values. -/
def Obligations.ReservedCodesAreRefused : Prop :=
  (∀ (w : Width) (sel : BitVec 3) (f : Fields w.bits) (s : State),
    (sel = 0b110#3 ∨ sel = 0b111#3) → s.request = .of w sel f →
      decode s.request = .error (.reservedFunction (opselOf w sel)) ∧ step s = .refused (.reservedOpsel (opselOf w sel))) ∧
  (∀ (s : State) (e : Refusal), step s = .refused e →
    s.request.opsel = 0x6#4 ∨ s.request.opsel = 0x7#4 ∨ s.request.opsel = 0xE#4 ∨ s.request.opsel = 0xF#4) ∧
  (∀ (w : Width) (sel : BitVec 3) (f : Fields w.bits) (s : State),
    sel ≠ 0b110#3 → sel ≠ 0b111#3 → s.request = .of w sel f → ∃ v, step s = .next { s with response := some v })

/-- 30_encoding.md R55: a field marked ignored in R53 does not influence the response. -/
def Obligations.IgnoredFieldsHaveNoInfluence : Prop :=
  ∀ (w : Width) (a b ovf ovf' maxv maxv' : BitVec w.bits),
    SameResponse (.of w 0b000#3 ⟨a, b, ovf, maxv⟩) (.of w 0b000#3 ⟨a, b, ovf', maxv'⟩) ∧
    SameResponse (.of w 0b001#3 ⟨a, b, ovf, maxv⟩) (.of w 0b001#3 ⟨a, b, ovf, maxv'⟩) ∧
    SameResponse (.of w 0b010#3 ⟨a, b, ovf, maxv⟩) (.of w 0b010#3 ⟨a, b, ovf', maxv'⟩) ∧
    SameResponse (.of w 0b011#3 ⟨a, b, ovf, maxv⟩) (.of w 0b011#3 ⟨a, b, ovf', maxv⟩) ∧
    SameResponse (.of w 0b100#3 ⟨a, b, ovf, maxv⟩) (.of w 0b100#3 ⟨a, b, ovf', maxv'⟩)

/-- 30_encoding.md R59: the default forms are the raw ones with the constants fixed, for all inputs. -/
def Obligations.DefaultFormsSpecialiseRawForms : Prop :=
  ∀ (w : Width) (t1 t2 : TickCount w.bits),
    (∃ p, Answers w (.past w t1 t2) p ∧ Answers w (.pastRaw w t1 t2 (maxValueOverflow w.bits)) p) ∧
    (∃ r, Answers w (.add w t1 t2) r ∧ Answers w (.addRaw w t1 t2 (maxValue w.bits)) r ∧ r = t1 + t2) ∧
    (∃ r, Answers w (.sub w t1 t2) r ∧
      Answers w (.subRaw w t1 t2 (maxValueOverflow w.bits) (maxValue w.bits)) r ∧ r = t1 - t2)

/-- How a caller reads a response (R60): the boolean of an ordering operation is `res[0]` and the upper bits are zero, an
add result is unsigned, a sub result is the two's-complement reading. -/
def Obligations.ResponsesReadByTheirType : Prop :=
  ∀ (w : Width) (t1 t2 ovf mx : TickCount w.bits),
    (∃ p : Bool, ∃ v, Answers w (.past w t1 t2) v ∧ v.toNat = p.toNat ∧
      readResponse (.past w t1 t2) (.of w v) = .truth p) ∧
    (∃ p : Bool, ∃ v, Answers w (.pastRaw w t1 t2 ovf) v ∧ v.toNat = p.toNat ∧
      readResponse (.pastRaw w t1 t2 ovf) (.of w v) = .truth p) ∧
    (∃ v, Answers w (.add w t1 t2) v ∧ readResponse (.add w t1 t2) (.of w v) = .count v.toNat) ∧
    (∃ v, Answers w (.addRaw w t1 t2 mx) v ∧ readResponse (.addRaw w t1 t2 mx) (.of w v) = .count v.toNat) ∧
    (∃ v, Answers w (.sub w t1 t2) v ∧ readResponse (.sub w t1 t2) (.of w v) = .delta v.toInt) ∧
    (∃ v, Answers w (.subRaw w t1 t2 ovf mx) v ∧ readResponse (.subRaw w t1 t2 ovf mx) (.of w v) = .delta v.toInt)

/-! ## The machine as a whole -/

/-- A step runs the operation the presented request decodes to, and refuses where it decodes to none. The third clause
rests on the model's choice of what a table word stands for (log entry 4, DESIGN CHOICE): the spec has no table word. -/
def Obligations.StepRunsTheDecodedOperation : Prop :=
  (∀ (s : State) (i : Instr), decode s.request = .ok i → step s = exec i s) ∧
  (∀ (s : State) (o : Opsel), decode s.request = .error (.reservedFunction o) → step s = .refused (.reservedOpsel o)) ∧
  (∀ (s : State) (nbits w : Nat) (i : Instr), decodeTableWord nbits w = some i →
    step (s.withFetchWord nbits w) = exec i (s.withFetchWord nbits w))

/-- 60_exceptions.md R160: a response for every request with a defined code, no fault outcome, no cause of one. -/
def Obligations.EveryDefinedRequestIsAnswered : Prop :=
  (∀ s : State, s.request.opsel ∉ [0x6#4, 0x7#4, 0xE#4, 0xF#4] →
    ∃ v, step s = .next { s with response := some v }) ∧
  (∀ (s : State) (f : Fault), step s ≠ .fault f) ∧
  (∀ (i : Instr) (s : State), ∃ v, exec i s = .next { s with response := some v }) ∧
  IsEmpty Fault

/-- The frame of every operation: the request stays, and the response is of the instance the operation belongs to. -/
def Obligations.OperationsChangeOnlyTheResponse : Prop :=
  ∀ (i : Instr) (s t : State), exec i s = .next t →
    t.request = s.request ∧ ∃ v, t.response = some v ∧ v.width = i.width

/-- Nothing but the request decides a step: no earlier request or response does (10_state.md, 'Consequences a model may
rely on', an inference the spec marks as its own). -/
def Obligations.StepDependsOnTheRequestAlone : Prop :=
  ∀ s s' : State, s.request = s'.request → step s = step s'

/-- The instances do not mix: a request to one is answered by that one, from its own fields. -/
def Obligations.ResponseComesFromTheRequestedInstance : Prop :=
  ∀ (s t : State), step s = .next t → ∃ v, t.response = some v ∧ v.width = s.request.width

/-- Evaluating the same request again gives the same response and changes nothing. -/
def Obligations.EvaluationIsIdempotent : Prop :=
  ∀ s t : State, step s = .next t → step t = .next t ∧ evaluate t.request t = .next t

/-- The invariant of the boundary is kept by every step, and by the caller's presenting another request. -/
def Obligations.StepKeepsTheBoundaryInvariant : Prop :=
  (∀ s t : State, s.Inv → step s = .next t → t.Inv) ∧ (∀ (r : Request) (s : State), s.Inv → (s.present r).Inv)

/-- The invariant of the boundary holds after reset. -/
def Obligations.ResetHoldsTheBoundaryInvariant : Prop := State.reset.Inv

/-- After reset no response exists (log entry 3, DEDUCED) and the request of all zeros is presented (log entry 2, DESIGN
CHOICE); neither matters to any evaluation, the first one included. -/
def Obligations.FirstEvaluationIsLikeEveryLaterOne : Prop :=
  State.reset.response = none ∧ State.reset.request = .of .w16 0b000#3 ⟨0#16, 0#16, 0#16, 0#16⟩ ∧
  (∀ (r : Request) (s : State), evaluate r State.reset = evaluate r s)

/-- A caller-side sequence answers each request as if it were alone, at whatever state, in whatever company. That a list
holding a reserved code reports no response at all is the model's choice (log entry 20, DESIGN CHOICE). -/
def Obligations.SequenceAnswersEachRequestAlone : Prop :=
  ∀ (rs : List Request) (vs : List Response) (s : State),
    evaluateAll rs s = .next vs ↔ List.Forall₂ AnsweredBy rs vs

/-- A caller-side sequence of defined operations ends with one response for each request, and reordering the requests
reorders the responses. Which lists end so rests on the model's choice for reserved codes (log entry 20, DESIGN CHOICE). -/
def Obligations.SequenceCompletesAndCommutes : Prop :=
  (∀ (rs : List Request) (s : State), (∀ r ∈ rs, r.wellFormed = true) →
    ∃ vs, evaluateAll rs s = .next vs ∧ vs.length = rs.length) ∧
  (∀ (rs rs' : List Request) (vs : List Response) (s s' : State), rs.Perm rs' → evaluateAll rs s = .next vs →
    ∃ vs', evaluateAll rs' s' = .next vs' ∧ vs.Perm vs')

/-! ## wrapped_tick_comparator (40_comparator.md) -/

/-- 40_comparator.md R70, with its encoding, its corner cases and its worked example. -/
def Obligations.PastRawFollowsItsAlgorithm : Prop :=
  (∀ (w : Width) (t1 t2 ovf maxv : TickCount w.bits),
    (Request.of w 0b001#3 ⟨t1, t2, ovf, maxv⟩).opsel = (match w with | .w16 => 0x1#4 | .w32 => 0x9#4) ∧
    decode (.of w 0b001#3 ⟨t1, t2, ovf, maxv⟩) = .ok (.pastRaw w t1 t2 ovf) ∧
    Answers w (.pastRaw w t1 t2 ovf)
      (if t1.toNat ≤ t2.toNat then (if t2.toNat - t1.toNat < ovf.toNat then 1#w.bits else 0#w.bits)
       else (if t1.toNat - t2.toNat > ovf.toNat then 1#w.bits else 0#w.bits)) ∧
    Answers w (.pastRaw w t1 t1 ovf) (if 0 < ovf.toNat then 1#w.bits else 0#w.bits)) ∧
  Answers .w32 (.pastRaw .w32 0xFFFFFFF0#32 10#32 0x7FFFFFFF#32) 1#32

/-- 40_comparator.md R71, with its encoding, its corner cases and its worked examples. -/
def Obligations.PastUsesTheHalfRangeThreshold : Prop :=
  (∀ (w : Width) (t1 t2 ovf maxv : TickCount w.bits),
    (Request.of w 0b000#3 ⟨t1, t2, ovf, maxv⟩).opsel = (match w with | .w16 => 0x0#4 | .w32 => 0x8#4) ∧
    decode (.of w 0b000#3 ⟨t1, t2, ovf, maxv⟩) = .ok (.past w t1 t2) ∧
    Answers w (.past w t1 t2)
      (if t1.toNat ≤ t2.toNat
       then (if t2.toNat - t1.toNat < 2 ^ (w.bits - 1) - 1 then 1#w.bits else 0#w.bits)
       else (if t1.toNat - t2.toNat > 2 ^ (w.bits - 1) - 1 then 1#w.bits else 0#w.bits)) ∧
    (∃ p, Answers w (.past w t1 t2) p ∧ Answers w (.pastRaw w t1 t2 (maxValueOverflow w.bits)) p) ∧
    Answers w (.past w t1 t1) 1#w.bits ∧
    (t1 ≤ t2 → t2 - t1 = maxValueOverflow w.bits → Answers w (.past w t1 t2) 0#w.bits) ∧
    (t2 < t1 → t1 - t2 = maxValueOverflow w.bits → Answers w (.past w t1 t2) 0#w.bits) ∧
    (t2 < t1 → t1 - t2 = maxValueOverflow w.bits + 1#w.bits → Answers w (.past w t1 t2) 1#w.bits)) ∧
  Answers .w32 (.past32 20#32 10#32) 0#32 ∧ Answers .w32 (.past32 10#32 20#32) 1#32 ∧
  Answers .w32 (.past32 0xFFFFFFF0#32 10#32) 1#32 ∧ Answers .w32 (.past32 10#32 0xFFFFFFF0#32) 0#32

/-- The closed form of R72 (an inference the spec marks as its own: '[derived: from rule R70 and rule R71]'), by the
forward distance `d`; and the result is not a function of `d` alone. -/
def Obligations.PastByForwardDistance : Prop :=
  (∀ (w : Width) (t1 t2 ovf : TickCount w.bits),
    Answers w (.pastRaw w t1 t2 ovf)
      (if t1 ≤ t2 then (if (t2 - t1).toNat < ovf.toNat then 1#w.bits else 0#w.bits)
       else (if (t2 - t1).toNat < 2 ^ w.bits - ovf.toNat then 1#w.bits else 0#w.bits)) ∧
    Answers w (.past w t1 t2)
      (if t1 ≤ t2 then (if (t2 - t1).toNat ≤ 2 ^ (w.bits - 1) - 2 then 1#w.bits else 0#w.bits)
       else (if (t2 - t1).toNat ≤ 2 ^ (w.bits - 1) then 1#w.bits else 0#w.bits)) ∧
    (t2 < t1 → 1 ≤ (t2 - t1).toNat)) ∧
  (∀ w : Width, ∃ a b a' b' : TickCount w.bits,
    b - a = b' - a' ∧ Answers w (.past w a b) 0#w.bits ∧ Answers w (.past w a' b') 1#w.bits)

/-- At and around the threshold: R73 a to d (an inference the spec marks as its own: '[derived: from rule R70]'). -/
def Obligations.PastRawAtTheThreshold : Prop :=
  ∀ (w : Width) (t1 t2 ovf : TickCount w.bits),
    Answers w (.pastRaw w t1 t1 ovf) (if 1 ≤ ovf.toNat then 1#w.bits else 0#w.bits) ∧
    Answers w (.past w t1 t1) 1#w.bits ∧
    (t2.toNat = t1.toNat + ovf.toNat → Answers w (.pastRaw w t1 t2 ovf) 0#w.bits) ∧
    (t1 ≤ t2 → t2.toNat + 1 = t1.toNat + ovf.toNat → Answers w (.pastRaw w t1 t2 ovf) 1#w.bits) ∧
    (t2 < t1 → t1.toNat = t2.toNat + ovf.toNat → Answers w (.pastRaw w t1 t2 ovf) 0#w.bits) ∧
    (t1.toNat = t2.toNat + ovf.toNat + 1 → Answers w (.pastRaw w t1 t2 ovf) 1#w.bits) ∧
    (t1 ≠ t2 → ∃ p q, Answers w (.pastRaw w t1 t2 ovf) p ∧ Answers w (.pastRaw w t2 t1 ovf) q ∧
      ¬(p = 1#w.bits ∧ q = 1#w.bits) ∧
      ((p = 0#w.bits ∧ q = 0#w.bits) ↔
        (t1.toNat = t2.toNat + ovf.toNat ∨ t2.toNat = t1.toNat + ovf.toNat)))

/-- Extreme thresholds: R74 (an inference the spec marks as its own: '[derived: from rule R70]'). -/
def Obligations.PastRawAtExtremeThresholds : Prop :=
  ∀ (w : Width) (t1 t2 : TickCount w.bits),
    Answers w (.pastRaw w t1 t2 0#w.bits) (if t2 < t1 then 1#w.bits else 0#w.bits) ∧
    Answers w (.pastRaw w t1 t2 (maxValue w.bits))
      (if t1 ≤ t2 ∧ ¬(t1 = 0#w.bits ∧ t2 = maxValue w.bits) then 1#w.bits else 0#w.bits)

/-- What the result means on the full circle: R76's exact form (an inference the spec marks as its own: '[derived: from
rule R72]'), with the failure above the half range, and the default threshold's range. -/
def Obligations.PastAgreesWithTrueOrder : Prop :=
  ∀ (w : Width),
    (∀ (t ovf : TickCount w.bits) (e : Nat), PastContract (2 ^ w.bits) ovf.toNat e →
      Answers w (.pastRaw w t (t + BitVec.ofNat w.bits e) ovf) 1#w.bits ∧
      Answers w (.pastRaw w (t + BitVec.ofNat w.bits e) t ovf) 0#w.bits) ∧
    (∀ ovf : TickCount w.bits, 2 ^ (w.bits - 1) < ovf.toNat → ∃ (t : TickCount w.bits) (e : Nat), 0 < e ∧ e < ovf.toNat ∧
      ¬(Answers w (.pastRaw w t (t + BitVec.ofNat w.bits e) ovf) 1#w.bits ∧
        Answers w (.pastRaw w (t + BitVec.ofNat w.bits e) t ovf) 0#w.bits)) ∧
    (∀ (t : TickCount w.bits) (e : Nat), 1 ≤ e → e ≤ 2 ^ (w.bits - 1) - 2 →
      Answers w (.past w t (t + BitVec.ofNat w.bits e)) 1#w.bits ∧
      Answers w (.past w (t + BitVec.ofNat w.bits e) t) 0#w.bits)

/-- Use with a reduced modulus: R77 (an inference the spec marks as its own: '[derived: from rule R70]'). -/
def Obligations.PastRawOrdersAReducedCounter : Prop :=
  (∀ (w : Width) (t ovf mx : TickCount w.bits) (e : Nat), t ≤ mx → PastContract (mx.toNat + 1) ovf.toNat e →
    Answers w (.pastRaw w t (BitVec.ofNat w.bits ((t.toNat + e) % (mx.toNat + 1))) ovf) 1#w.bits ∧
    Answers w (.pastRaw w (BitVec.ofNat w.bits ((t.toNat + e) % (mx.toNat + 1))) t ovf) 0#w.bits) ∧
  Answers .w32 (.pastRaw32 0x00FFFFF0#32 0x10#32 0x007FFFFF#32) 1#32 ∧
  Answers .w32 (.pastRaw32 0x10#32 0x00FFFFF0#32 0x007FFFFF#32) 0#32

/-! ## wrapped_tick_adder (41_adder.md) -/

/-- 41_adder.md R90, with its encoding, its corner cases and its worked example: the response is where the document's
loop stops, started from the sum in the native width (the 16-bit reading is the spec's decision D9, log entry 8). -/
def Obligations.AddRawRunsTheNormalisationLoop : Prop :=
  (∀ (w : Width) (t1 k mx ovf : TickCount w.bits),
    (Request.of w 0b011#3 ⟨t1, k, ovf, mx⟩).opsel = (match w with | .w16 => 0x3#4 | .w32 => 0xB#4) ∧
    decode (.of w 0b011#3 ⟨t1, k, ovf, mx⟩) = .ok (.addRaw w t1 k mx) ∧
    (∃ n r, NormalizeLoop mx (BitVec.ofNat w.bits (t1.toNat + k.toNat)) n r ∧
      BitVec.ofNat w.bits (t1.toNat + k.toNat) = BitVec.ofInt w.bits ((t1.toNat : Int) + k.toInt) ∧
      Answers w (.addRaw w t1 k mx) r ∧ r ≤ mx ∧
      (mx = maxValue w.bits → n = 0) ∧ (mx = 0#w.bits → r = 0#w.bits))) ∧
  NormalizeLoop 0x00FFFFFF#32 0x01000010#32 1 0x10#32 ∧
  Answers .w32 (.addRaw32 0x00FFFFF0#32 0x20#32 0x00FFFFFF#32) 0x10#32

/-- 41_adder.md R91, with its encoding, its corner cases and its worked examples. -/
def Obligations.AddIsTheNativeSum : Prop :=
  (∀ (w : Width) (t1 k ovf maxv : TickCount w.bits),
    (Request.of w 0b010#3 ⟨t1, k, ovf, maxv⟩).opsel = (match w with | .w16 => 0x2#4 | .w32 => 0xA#4) ∧
    decode (.of w 0b010#3 ⟨t1, k, ovf, maxv⟩) = .ok (.add w t1 k) ∧
    (∃ r, Answers w (.add w t1 k) r ∧ r.toNat = (t1.toNat + k.toNat) % 2 ^ w.bits ∧
      (r.toNat : Int) = ((t1.toNat : Int) + k.toInt) % 2 ^ w.bits) ∧
    Answers w (.add w t1 0#w.bits) t1) ∧
  Answers .w32 (.add32 0xFFFFFFF0#32 0x20#32) 0x10#32 ∧
  Answers .w32 (.add32 0xFFFFFFF0#32 0xFFFFFFE0#32) 0xFFFFFFD0#32

/-- The closed form of R92 (an inference the spec marks as its own: '[derived: from rule R90]'): `r0` under the full
modulus, else the value in `[0, max_value]` congruent to `r0`, and the only one. -/
def Obligations.AddRawIsTheUniqueResidue : Prop :=
  ∀ (w : Width) (t1 k mx : TickCount w.bits),
    ∃ r, Answers w (.addRaw w t1 k mx) r ∧ r.toNat = (t1 + k).toNat % (mx.toNat + 1) ∧
      (mx = maxValue w.bits → r = t1 + k) ∧
      (∀ x : TickCount w.bits, (x ≤ mx ∧ x.toNat % (mx.toNat + 1) = (t1 + k).toNat % (mx.toNat + 1)) ↔ x = r)

/-- Termination of the loop: R93 (an inference the spec marks as its own: '[derived: from rule R90]'): it stops, at one
place only, after exactly `floor(r0 / (max_value + 1))` rounds, at most `2^W - 1`. -/
def Obligations.NormalisationLoopTerminates : Prop :=
  ∀ (w : Width) (r0 mx : TickCount w.bits),
    (∃ n r, NormalizeLoop mx r0 n r) ∧
    (∀ n r, NormalizeLoop mx r0 n r → n = r0.toNat / (mx.toNat + 1) ∧ n ≤ 2 ^ w.bits - 1 ∧
      r.toNat = r0.toNat % (mx.toNat + 1)) ∧
    (∀ n r, NormalizeLoop mx r0 n r → (n = 2 ^ w.bits - 1 ↔ (mx = 0#w.bits ∧ r0 = maxValue w.bits)))

/-- Operands outside the modulus: R95 (an inference the spec marks as its own: '[derived: from rule R92]'). -/
def Obligations.AddRawNormalisesAnyOperand : Prop :=
  ∀ (w : Width) (t1 k mx : TickCount w.bits),
    (∃ r, Answers w (.addRaw w t1 k mx) r ∧ r ≤ mx) ∧
    (∃ r, Answers w (.addRaw w t1 0#w.bits mx) r ∧ r.toNat = t1.toNat % (mx.toNat + 1) ∧ (r = t1 ↔ t1 ≤ mx)) ∧
    Answers w (.addRaw w t1 k 0#w.bits) 0#w.bits

/-- When the result is the true modular sum: R96 (an inference the spec marks as its own: '[derived: from rule R92]'),
with the spec's three examples. -/
def Obligations.AddRawIsTheModularSumWithinTheNativeRange : Prop :=
  (∀ (w : Width) (t1 k mx : TickCount w.bits),
    ((0 ≤ (t1.toNat : Int) + k.toInt ∧ (t1.toNat : Int) + k.toInt ≤ 2 ^ w.bits - 1) ∨ (mx.toNat + 1) ∣ 2 ^ w.bits) →
      ∃ r, Answers w (.addRaw w t1 k mx) r ∧ (r.toNat : Int) = ((t1.toNat : Int) + k.toInt) % (mx.toNat + 1)) ∧
  Answers .w16 (.addRaw16 3#16 0xFFFB#16 9#16) 4#16 ∧
  Answers .w16 (.addRaw16 3#16 5#16 9#16) 8#16 ∧
  Answers .w16 (.addRaw16 59990#16 20000#16 59999#16) 14454#16

/-- The most negative `ticks`: R98 (an inference the spec marks as its own: '[derived: from rule R91]'). -/
def Obligations.AddOfTheMostNegativeTicks : Prop :=
  ∀ (w : Width) (a : TickCount w.bits),
    (BitVec.ofNat w.bits (2 ^ (w.bits - 1))).toInt = -(2 ^ (w.bits - 1)) ∧
    negW (BitVec.ofNat w.bits (2 ^ (w.bits - 1))) = BitVec.ofNat w.bits (2 ^ (w.bits - 1)) ∧
    (∃ r, Answers w (.add w a (BitVec.ofNat w.bits (2 ^ (w.bits - 1)))) r ∧
      r.toNat = (a.toNat + 2 ^ (w.bits - 1)) % 2 ^ w.bits ∧
      Answers w (.add w r (BitVec.ofNat w.bits (2 ^ (w.bits - 1)))) a)

/-! ## wrapped_tick_subtractor (42_subtractor.md) -/

/-- 42_subtractor.md R110, with its encoding, its corner cases and its worked example. -/
def Obligations.SubRawFollowsItsAlgorithm : Prop :=
  (∀ (w : Width) (t1 t2 ovf mx : TickCount w.bits),
    (Request.of w 0b101#3 ⟨t1, t2, ovf, mx⟩).opsel = (match w with | .w16 => 0x5#4 | .w32 => 0xD#4) ∧
    decode (.of w 0b101#3 ⟨t1, t2, ovf, mx⟩) = .ok (.subRaw w t1 t2 ovf mx) ∧
    Answers w (.subRaw w t1 t2 ovf mx)
      (BitVec.ofInt w.bits
        (if t1.toNat ≥ t2.toNat then
          (if t1.toNat - t2.toNat > ovf.toNat then (t1.toNat : Int) - t2.toNat - mx.toNat - 1
           else (t1.toNat : Int) - t2.toNat)
         else
          (if t2.toNat - t1.toNat > ovf.toNat then (mx.toNat : Int) + 1 - ((t2.toNat : Int) - t1.toNat)
           else -((t2.toNat : Int) - t1.toNat)))) ∧
    Answers w (.subRaw w t1 t1 ovf mx) 0#w.bits) ∧
  Answers .w32 (.subRaw32 0x10#32 0x00FFFFF0#32 0x007FFFFF#32 0x00FFFFFF#32) 0x20#32

/-- 42_subtractor.md R111, with its encoding, its corner cases and its worked examples. -/
def Obligations.SubIsTwosComplementSubtraction : Prop :=
  (∀ (w : Width) (t1 t2 ovf maxv : TickCount w.bits),
    (Request.of w 0b100#3 ⟨t1, t2, ovf, maxv⟩).opsel = (match w with | .w16 => 0x4#4 | .w32 => 0xC#4) ∧
    decode (.of w 0b100#3 ⟨t1, t2, ovf, maxv⟩) = .ok (.sub w t1 t2) ∧
    (∃ r, Answers w (.sub w t1 t2) r ∧ (r.toNat : Int) = ((t1.toNat : Int) - t2.toNat) % 2 ^ w.bits ∧
      Answers w (.subRaw w t1 t2 (maxValueOverflow w.bits) (maxValue w.bits)) r ∧
      (∀ x : Int, (-(2 ^ (w.bits - 1)) ≤ x ∧ x ≤ 2 ^ (w.bits - 1) - 1 ∧
        (2 ^ w.bits : Int) ∣ x - ((t1.toNat : Int) - t2.toNat)) ↔ x = r.toInt) ∧
      ((t1.toNat = t2.toNat + 2 ^ (w.bits - 1) ∨ t2.toNat = t1.toNat + 2 ^ (w.bits - 1)) →
        r.toInt = -(2 ^ (w.bits - 1)))) ∧
    Answers w (.sub w t1 t1) 0#w.bits) ∧
  Answers .w32 (.sub32 20#32 10#32) 10#32 ∧ Answers .w32 (.sub32 10#32 20#32) 0xFFFFFFF6#32 ∧
  Answers .w32 (.sub32 0xFFFFFFF0#32 10#32) 0xFFFFFFE6#32 ∧ Answers .w32 (.sub32 10#32 0xFFFFFFF0#32) 0x1A#32

/-- The closed form of R112 (an inference the spec marks as its own: '[derived: from rule R110 and rule R111]'). -/
def Obligations.SubRawFoldsByOneModulus : Prop :=
  ∀ (w : Width) (t1 t2 ovf mx : TickCount w.bits),
    Answers w (.subRaw w t1 t2 ovf mx) (BitVec.ofInt w.bits (foldedDistance t1 t2 ovf mx)) ∧
    ((mx.toNat + 1 : Int) ∣ foldedDistance t1 t2 ovf mx - ((t1.toNat : Int) - t2.toNat)) ∧
    (∃ r, Answers w (.sub w t1 t2) r ∧ Answers w (.subRaw w t1 t2 ovf (maxValue w.bits)) r ∧
      Answers w (.subRaw w t1 t2 (maxValue w.bits) mx) r)

/-- Delivery of the signed result modulo `2^W` (42_subtractor.md section 2; the spec's decision D8, log entry 7): the
reading is `v` exactly when `v` fits, and `W`-bit arithmetic in the four arms gives the same pattern. -/
def Obligations.SubRawDeliversModuloTheWord : Prop :=
  (∀ (w : Width) (t1 t2 ovf mx : TickCount w.bits),
    ∃ r, Answers w (.subRaw w t1 t2 ovf mx) r ∧
      (r.toInt = foldedDistance t1 t2 ovf mx ↔
        (-(2 ^ (w.bits - 1)) ≤ foldedDistance t1 t2 ovf mx ∧ foldedDistance t1 t2 ovf mx ≤ 2 ^ (w.bits - 1) - 1)) ∧
      ((2 ^ w.bits : Int) ∣ r.toInt - foldedDistance t1 t2 ovf mx) ∧
      r = (if t2 ≤ t1 then (if ovf < t1 - t2 then t1 - t2 - mx - 1#w.bits else t1 - t2)
           else (if ovf < t2 - t1 then mx + 1#w.bits - (t2 - t1) else -(t2 - t1)))) ∧
  (∀ w : Width,
    Answers w (.subRaw w 0#w.bits (BitVec.ofNat w.bits (2 ^ (w.bits - 1))) (maxValueOverflow w.bits) (maxValue w.bits))
      (BitVec.ofInt w.bits (-(2 ^ (w.bits - 1)))))

/-- At and around the threshold: R114 (an inference the spec marks as its own: '[derived: from rule R110]'), with its two
examples. -/
def Obligations.SubRawAtTheThreshold : Prop :=
  (∀ (w : Width) (t1 t2 ovf mx : TickCount w.bits),
    (t1 = t2 → Answers w (.subRaw w t1 t2 ovf mx) 0#w.bits) ∧
    (t2 < t1 → t1.toNat - t2.toNat ≤ ovf.toNat → Answers w (.subRaw w t1 t2 ovf mx) (t1 - t2)) ∧
    (t1 < t2 → t2.toNat - t1.toNat ≤ ovf.toNat → Answers w (.subRaw w t1 t2 ovf mx) (-(t2 - t1))) ∧
    (t2 < t1 → ovf.toNat + 1 ≤ t1.toNat - t2.toNat →
      Answers w (.subRaw w t1 t2 ovf mx) (BitVec.ofInt w.bits ((t1.toNat : Int) - t2.toNat - (mx.toNat + 1)))) ∧
    (t1 < t2 → ovf.toNat + 1 ≤ t2.toNat - t1.toNat →
      Answers w (.subRaw w t1 t2 ovf mx) (BitVec.ofInt w.bits ((mx.toNat : Int) + 1 - (t2.toNat - t1.toNat))))) ∧
  Answers .w32 (.subRaw32 0x7FFFFFFF#32 0#32 0x7FFFFFFF#32 0xFFFFFFFF#32) (BitVec.ofInt 32 2147483647) ∧
  Answers .w32 (.subRaw32 0x80000000#32 0#32 0x7FFFFFFF#32 0xFFFFFFFF#32) (BitVec.ofInt 32 (-2147483648))

/-- When the distance fits: R115 (an inference the spec marks as its own: '[derived: from rule R112]'). -/
def Obligations.SubRawFitsUnderTheDefaultRelation : Prop :=
  ∀ (w : Width) (t1 t2 ovf mx : TickCount w.bits), SubContract t1 t2 ovf mx →
    ∃ r, Answers w (.subRaw w t1 t2 ovf mx) r ∧
      (r.toInt = foldedDistance t1 t2 ovf mx ↔
        ¬(mx = maxValue w.bits ∧ t2.toNat = t1.toNat + 2 ^ (w.bits - 1))) ∧
      ((mx = maxValue w.bits ∧ t2.toNat = t1.toNat + 2 ^ (w.bits - 1)) →
        foldedDistance t1 t2 ovf mx = 2 ^ (w.bits - 1) ∧ r.toInt = -(2 ^ (w.bits - 1))) ∧
      |foldedDistance t1 t2 ovf mx| ≤ ovf.toNat + 1 ∧
      (|foldedDistance t1 t2 ovf mx| = ovf.toNat + 1 → mx.toNat % 2 = 1 ∧
        ((t1.toNat = t2.toNat + (mx.toNat + 1) / 2 ∧ foldedDistance t1 t2 ovf mx = -((mx.toNat + 1) / 2)) ∨
         (t2.toNat = t1.toNat + (mx.toNat + 1) / 2 ∧ foldedDistance t1 t2 ovf mx = (mx.toNat + 1) / 2)))

/-- The result is the true signed distance within the contract: R116's exact form (an inference the spec marks as its own:
'[derived: from rule R112]'). -/
def Obligations.SubRawIsTheTrueDistance : Prop :=
  ∀ (w : Width) (t1 t2 ovf mx : TickCount w.bits) (e : Int), SubContract t1 t2 ovf mx → |e| ≤ ovf.toNat →
    (t1.toNat : Int) = ((t2.toNat : Int) + e) % (mx.toNat + 1) →
    ∃ r, Answers w (.subRaw w t1 t2 ovf mx) r ∧ r.toInt = e

/-- Extreme parameters are legal and give the formula's value (42_subtractor.md section 4). -/
def Obligations.SubRawAtExtremeParameters : Prop :=
  ∀ (w : Width) (t1 t2 ovf mx : TickCount w.bits),
    (t2 < t1 → Answers w (.subRaw w t1 t2 0#w.bits mx) (t1 - t2 - (mx + 1#w.bits))) ∧
    (t1 < t2 → Answers w (.subRaw w t1 t2 0#w.bits mx) (t1 - t2 + (mx + 1#w.bits))) ∧
    (ovf.toNat < t1.toNat - t2.toNat → Answers w (.subRaw w t1 t2 ovf 0#w.bits) (t1 - t2 - 1#w.bits)) ∧
    (ovf.toNat < t2.toNat - t1.toNat → Answers w (.subRaw w t1 t2 ovf 0#w.bits) (t1 - t2 + 1#w.bits)) ∧
    Answers w (.subRaw w t1 t2 (maxValue w.bits) mx) (t1 - t2)

/-! ## Laws across the operations (44_properties.md), each an inference the spec marks as its own -/

/-- R131: adding no ticks, by the default and by the raw form. -/
def Obligations.AddingNoTicks : Prop :=
  ∀ (w : Width) (a mx : TickCount w.bits),
    Answers w (.add w a 0#w.bits) a ∧
    (∃ r, Answers w (.addRaw w a 0#w.bits mx) r ∧ r.toNat = a.toNat % (mx.toNat + 1) ∧ (r = a ↔ a ≤ mx))

/-- R132: the round trip, with `-ticks` formed in `W`-bit two's complement, for every `ticks` of the type. -/
def Obligations.AddRoundTrip : Prop :=
  ∀ (w : Width) (a : TickCount w.bits) (ticks : Int), -(2 ^ (w.bits - 1)) ≤ ticks → ticks ≤ 2 ^ (w.bits - 1) - 1 →
    (pat w.bits ticks).toInt = ticks ∧
    ∃ r, Answers w (.add w a (pat w.bits ticks)) r ∧ Answers w (.add w r (negW (pat w.bits ticks))) a

/-- R133: the exact set of pairs on which `past(a, b)` agrees with `sub(b, a) > 0` (90_conflicts.md C2). -/
def Obligations.PastAgreesWithTheSignOfSub : Prop :=
  ∀ (w : Width) (a b : TickCount w.bits),
    ∃ p r, Answers w (.past w a b) p ∧ Answers w (.sub w b a) r ∧ (p = 0#w.bits ∨ p = 1#w.bits) ∧
      (0 < r.toInt ↔ (1 ≤ (b - a).toNat ∧ (b - a).toNat ≤ 2 ^ (w.bits - 1) - 1)) ∧
      ((p = 1#w.bits ↔ 0 < r.toInt) ↔
        ¬((b - a).toNat = 0 ∨
          ((b - a).toNat = 2 ^ (w.bits - 1) - 1 ∧ a ≤ b) ∨
          ((b - a).toNat = 2 ^ (w.bits - 1) ∧ b < a)))

/-- R134: `past` is true of equal operands (90_conflicts.md C1, log entry 9), and never true both ways of distinct ones. -/
def Obligations.PastOfEqualOperands : Prop :=
  ∀ (w : Width) (a b : TickCount w.bits),
    Answers w (.past w a a) 1#w.bits ∧ Answers w (.pastRaw w a a 0#w.bits) 0#w.bits ∧
    (a ≠ b → ¬(Answers w (.past w a b) 1#w.bits ∧ Answers w (.past w b a) 1#w.bits))

/-- R135: antisymmetry of `sub`, as patterns without exception, as integers except half the circle apart. -/
def Obligations.SubIsAntisymmetric : Prop :=
  ∀ (w : Width) (a b : TickCount w.bits),
    ∃ x y, Answers w (.sub w a b) x ∧ Answers w (.sub w b a) y ∧ x = negW y ∧
      (x.toInt = -y.toInt ↔
        ¬(a.toNat = b.toNat + 2 ^ (w.bits - 1) ∨ b.toNat = a.toNat + 2 ^ (w.bits - 1))) ∧
      ((a.toNat = b.toNat + 2 ^ (w.bits - 1) ∨ b.toNat = a.toNat + 2 ^ (w.bits - 1)) →
        x.toInt = -(2 ^ (w.bits - 1)) ∧ y.toInt = -(2 ^ (w.bits - 1)))

/-- R138's literals: the 16-bit counterparts of the document's scenarios, each through a whole step from any state.
The fields an operation ignores hold zero here (log entry 13). -/
def Obligations.SixteenBitScenarios : Prop :=
  AnsweredBy (encode (.past16 20#16 10#16)) (.w16 0#16) ∧ AnsweredBy (encode (.past16 10#16 20#16)) (.w16 1#16) ∧
  AnsweredBy (encode (.past16 0xFFF0#16 10#16)) (.w16 1#16) ∧ AnsweredBy (encode (.past16 10#16 0xFFF0#16)) (.w16 0#16) ∧
  AnsweredBy (encode (.sub16 20#16 10#16)) (.w16 10#16) ∧ AnsweredBy (encode (.sub16 10#16 20#16)) (.w16 0xFFF6#16) ∧
  AnsweredBy (encode (.sub16 0xFFF0#16 10#16)) (.w16 0xFFE6#16) ∧
  AnsweredBy (encode (.sub16 10#16 0xFFF0#16)) (.w16 26#16) ∧
  AnsweredBy (encode (.add16 0xFFF0#16 0x20#16)) (.w16 0x0010#16) ∧
  AnsweredBy (encode (.add16 0xFFF0#16 0xFFE0#16)) (.w16 0xFFD0#16) ∧
  AnsweredBy (encode (.addRaw16 0x0FF0#16 0x20#16 0x0FFF#16)) (.w16 0x0010#16) ∧
  AnsweredBy (encode (.subRaw16 0x0010#16 0x0FF0#16 0x07FF#16 0x0FFF#16)) (.w16 0x0020#16)

/-- R139: advancing by `k` and measuring the distance back returns `k`. -/
def Obligations.SubUndoesAdd : Prop :=
  ∀ (w : Width) (a : TickCount w.bits) (k : TickDelta w.bits),
    ∃ r, Answers w (.add w a k) r ∧ Answers w (.sub w r a) k

/-- R140: adding the signed distance back to the subtrahend recovers the minuend. -/
def Obligations.AddUndoesSub : Prop :=
  ∀ (w : Width) (a b : TickCount w.bits), ∃ d, Answers w (.sub w a b) d ∧ Answers w (.add w b d) a

/-- R141: the raw forms are mutually inverse under the default relation, where the modular sum is not lost. -/
def Obligations.SubRawUndoesAddRaw : Prop :=
  ∀ (w : Width) (t ovf mx : TickCount w.bits) (k : Int), t ≤ mx → ovf.toNat = mx.toNat / 2 → |k| ≤ ovf.toNat →
    ((mx.toNat + 1) ∣ 2 ^ w.bits ∨ (0 ≤ (t.toNat : Int) + k ∧ (t.toNat : Int) + k ≤ 2 ^ w.bits - 1)) →
    ∃ r, Answers w (.addRaw w t (pat w.bits k) mx) r ∧
      Answers w (.subRaw w r t ovf mx) (pat w.bits k) ∧ (pat w.bits k).toInt = k

/-- R142: the exact set on which `past_raw` agrees with the sign of `sub_raw`, for a general modulus. -/
def Obligations.PastRawAgreesWithTheSignOfSubRaw : Prop :=
  ∀ (w : Width) (t1 t2 ovf mx : TickCount w.bits), SubContract t1 t2 ovf mx →
    ∃ p r, Answers w (.pastRaw w t1 t2 ovf) p ∧ Answers w (.subRaw w t2 t1 ovf mx) r ∧
      ((p = 1#w.bits ↔ 0 < r.toInt) ↔
        ¬((1 ≤ ovf.toNat ∧ ((t2.toNat : Int) - t1.toNat) % (mx.toNat + 1) = 0) ∨
          (1 ≤ ovf.toNat ∧ ((t2.toNat : Int) - t1.toNat) % (mx.toNat + 1) = ovf.toNat ∧ t1 ≤ t2) ∨
          (mx = maxValue w.bits ∧ ((t2.toNat : Int) - t1.toNat) % (mx.toNat + 1) = 2 ^ (w.bits - 1) ∧ t2 < t1)))

/-- R143: `add` and `sub` do not change under rotation of the circle; `past` does, but not at the distances named. -/
def Obligations.RotationOfTheCircle : Prop :=
  (∀ (w : Width) (a b c : TickCount w.bits) (k : TickDelta w.bits),
    (∃ d, Answers w (.sub w a b) d ∧ Answers w (.sub w (a + c) (b + c)) d) ∧
    (∃ r, Answers w (.add w a k) r ∧ Answers w (.add w (a + c) k) (r + c)) ∧
    (1 ≤ (b - a).toNat → (b - a).toNat ≤ 2 ^ (w.bits - 1) - 2 → Answers w (.past w a b) 1#w.bits) ∧
    (1 ≤ (a - b).toNat → (a - b).toNat ≤ 2 ^ (w.bits - 1) - 1 → Answers w (.past w a b) 0#w.bits)) ∧
  Answers .w32 (.past32 0#32 0x7FFFFFFF#32) 0#32 ∧ Answers .w32 (.past32 0xFFFFFFFF#32 0x7FFFFFFE#32) 1#32

/-- R144: antisymmetry of `sub_raw` for all operands and parameters; with the mirrored pair of R119. -/
def Obligations.SubRawIsAntisymmetric : Prop :=
  Answers .w32 (.subRaw32 0x00FFFFF0#32 0x10#32 0x007FFFFF#32 0x00FFFFFF#32) (BitVec.ofInt 32 (-32)) ∧
  Answers .w32 (.subRaw32 0x10#32 0x00FFFFF0#32 0x007FFFFF#32 0x00FFFFFF#32) (BitVec.ofInt 32 32) ∧
  ∀ (w : Width) (t1 t2 ovf mx : TickCount w.bits),
    foldedDistance t1 t2 ovf mx = -foldedDistance t2 t1 ovf mx ∧
    ∃ x y, Answers w (.subRaw w t1 t2 ovf mx) x ∧ Answers w (.subRaw w t2 t1 ovf mx) y ∧ x = negW y

/-- R145: a 16-bit operation is no truncation or extension of the 32-bit one. -/
def Obligations.WidthsAreNotInterchangeable : Prop :=
  Answers .w32 (.sub32 0xFFF0#32 10#32) 0xFFE6#32 ∧ Answers .w32 (.past32 0xFFF0#32 10#32) 0#32 ∧
  Answers .w16 (.sub16 0xFFF0#16 10#16) (BitVec.ofInt 16 (-26)) ∧ Answers .w16 (.past16 0xFFF0#16 10#16) 1#16 ∧
  Answers .w32 (.subRaw32 0xFFF0#32 10#32 0x7FFF#32 0xFFFF#32) (BitVec.ofInt 32 (-26)) ∧
  Answers .w32 (.pastRaw32 0xFFF0#32 10#32 0x7FFF#32) 1#32
end

