-- ==== Sys2Proof/Laws/Operands.lean ====
section
/-! SUPPORT. The primitives in core Lean's terms, for the arithmetic that follows. -/

namespace Sys2Proof.Machine

variable {W : Nat}

@[simp] theorem unsigned_eq (v : BitVec W) : unsigned v = v.toNat := rfl
@[simp] theorem addW_eq (a b : BitVec W) : addW a b = a + b := rfl
@[simp] theorem subW_eq (a b : BitVec W) : subW a b = a - b := rfl
@[simp] theorem negW_eq (a : BitVec W) : negW a = -a := rfl
@[simp] theorem pat_eq (x : Int) : pat W x = BitVec.ofInt W x := rfl

/-- The model's signed reading is core Lean's. -/
@[simp] theorem signed_eq (h : 0 < W) (v : BitVec W) : signed v = v.toInt := by
  obtain ⟨n, rfl⟩ : ∃ n, W = n + 1 := ⟨W - 1, by omega⟩
  have : 2 ^ (n + 1) = 2 * 2 ^ n := by ring
  simp only [signed, unsigned, BitVec.toInt, Nat.add_sub_cancel, this]
  push_cast
  split <;> split <;> omega

theorem maxValue_toNat : (maxValue W).toNat = 2 ^ W - 1 := by simp [maxValue]

theorem le_maxValue (v : BitVec W) : v ≤ maxValue W := by
  rw [BitVec.le_def, maxValue_toNat]; have := v.isLt; omega

theorem maxValueOverflow_toNat : (maxValueOverflow W).toNat = (2 ^ W - 1) / 2 := by
  simp [maxValueOverflow, maxValue_toNat, Nat.shiftRight_eq_div_pow]

theorem b2v_true : b2v W true = 1#W := rfl
theorem b2v_false : b2v W false = 0#W := rfl

/-- A boolean on `res` is decided by its truth. -/
theorem b2v_decide (P : Prop) [Decidable P] : b2v W (decide P) = if P then 1#W else 0#W := by
  by_cases h : P <;> simp [h, b2v]

/-- What a boolean on `res` can be. -/
theorem b2v_cases (p : Bool) : b2v W p = 0#W ∨ b2v W p = 1#W := by cases p <;> simp [b2v]

end Sys2Proof.Machine
end

