-- ==== Sys2Proof/Laws/Arithmetic.lean ====
section
/-! SUPPORT. One lemma per shared operation of the three sub-blocks, saying once what it computes. -/

namespace Sys2Proof.Machine

variable {W : Nat}

/-- When `past_raw` is true: the two branches of 40_comparator.md R70. -/
theorem pastRaw_eq_true_iff (t1 t2 ovf : TickCount W) :
    pastRaw t1 t2 ovf = true ↔
      (t1.toNat ≤ t2.toNat ∧ t2.toNat - t1.toNat < ovf.toNat) ∨
      (t2.toNat < t1.toNat ∧ ovf.toNat < t1.toNat - t2.toNat) := by
  by_cases h : t1.toNat ≤ t2.toNat
  · have : pastRaw t1 t2 ovf = decide (t2.toNat - t1.toNat < ovf.toNat) := if_pos h
    rw [this, decide_eq_true_iff]; omega
  · have : pastRaw t1 t2 ovf = decide (t1.toNat - t2.toNat > ovf.toNat) := if_neg h
    rw [this, decide_eq_true_iff]; omega

/-- The value of `normalize` as a number (41_adder.md R92); it never needs the reduction to the word. -/
theorem normalize_toNat (r0 mx : TickCount W) : (normalize r0 mx).toNat = r0.toNat % (mx.toNat + 1) := by
  simp only [normalize, unsigned_eq, BitVec.toNat_ofNat]
  exact Nat.mod_eq_of_lt (Nat.lt_of_le_of_lt (Nat.mod_le _ _) r0.isLt)

/-- The value of `add_raw` as a number. -/
theorem addRaw_toNat (t1 k mx : TickCount W) : (addRaw t1 k mx).toNat = (t1 + k).toNat % (mx.toNat + 1) :=
  normalize_toNat (t1 + k) mx

/-- `normalize` lands inside the modulus. -/
theorem normalize_le (r0 mx : TickCount W) : normalize r0 mx ≤ mx := by
  rw [BitVec.le_def, normalize_toNat]
  exact Nat.le_of_lt_succ (Nat.mod_lt _ (Nat.succ_pos _))

/-- `v` of 42_subtractor.md R110 with its arms flattened. -/
theorem subRawValue_eq (t1 t2 ovf mx : TickCount W) :
    subRawValue t1 t2 ovf mx =
      if t2.toNat ≤ t1.toNat then
        if ovf.toNat < t1.toNat - t2.toNat then (t1.toNat : Int) - t2.toNat - (mx.toNat + 1)
        else (t1.toNat : Int) - t2.toNat
      else
        if ovf.toNat < t2.toNat - t1.toNat then (mx.toNat : Int) + 1 - (t2.toNat - t1.toNat)
        else (t1.toNat : Int) - t2.toNat := by
  simp only [subRawValue, unsigned_eq]
  split_ifs <;> omega

end Sys2Proof.Machine
end

