-- ==== Sys2Proof/Laws/Decode.lean ====
section
/-! SUPPORT. The decoder by cases of `opsel[2:0]`, for proofs over all requests. -/

namespace Sys2Proof

/-- The eight values of `opsel[2:0]`. -/
theorem sel_cases (sel : BitVec 3) :
    sel = 0b000#3 ∨ sel = 0b001#3 ∨ sel = 0b010#3 ∨ sel = 0b011#3 ∨ sel = 0b100#3 ∨ sel = 0b101#3 ∨
      sel = 0b110#3 ∨ sel = 0b111#3 := by
  revert sel; decide

/-- The function sub-field is reserved exactly when the request is ill formed. -/
theorem opselFn_eq_none_iff (b : BitVec 1) (sel : BitVec 3) :
    opselFn (b ++ sel) = none ↔ sel.extractLsb' 1 2 = 0b11#2 := by
  revert b sel; decide

/-- The decoder yields an operation exactly for the well-formed requests (30_encoding.md R56). -/
theorem decode_ok_iff (r : Request) : (∃ i, decode r = .ok i) ↔ r.wellFormed = true := by
  cases r with
  | w16 sel f =>
    have := opselFn_eq_none_iff 0b0#1 sel
    cases h : opselFn (0b0#1 ++ sel) <;> simp_all [decode, Request.wellFormed]
  | w32 sel f =>
    have := opselFn_eq_none_iff 0b1#1 sel
    cases h : opselFn (0b1#1 ++ sel) <;> simp_all [decode, Request.wellFormed]

/-- What the decoder rejects, it rejects by the request's own code. -/
theorem decode_error (r : Request) (e : Reject) (h : decode r = .error e) : e = .reservedFunction r.opsel := by
  cases r with
  | w16 sel f => cases hf : opselFn (0b0#1 ++ sel) <;> simp_all [decode, Request.opsel]
  | w32 sel f => cases hf : opselFn (0b1#1 ++ sel) <;> simp_all [decode, Request.opsel]

/-- The code of a request named by width and `opsel[2:0]`. -/
@[simp] theorem ofOpsel_opsel (o : Opsel) : (Request.ofOpsel o).opsel = o := by
  revert o; decide

end Sys2Proof
end

