-- ==== Sys2Proof/Laws/State.lean ====
section
/-! SUPPORT. One lemma per field per update of the boundary, and what each operation over it answers. -/

namespace Sys2Proof.Machine

@[simp] theorem State.present_request (r : Request) (s : State) : (s.present r).request = r := rfl
@[simp] theorem State.present_response (r : Request) (s : State) : (s.present r).response = none := rfl
@[simp] theorem State.fetch_eq (s : State) : s.fetch = s.request := rfl
@[simp] theorem State.deliver_request (v : Response) (s : State) : (s.deliver v).request = s.request := rfl
@[simp] theorem State.deliver_response (v : Response) (s : State) : (s.deliver v).response = some v := rfl
@[simp] theorem State.deliver_deliver (v v' : Response) (s : State) : (s.deliver v).deliver v' = s.deliver v' := rfl
@[simp] theorem State.present_present (r r' : Request) (s : State) : (s.present r).present r' = s.present r' := rfl
@[simp] theorem State.present_deliver (r : Request) (v : Response) (s : State) :
    (s.deliver v).present r = s.present r := rfl

@[simp] theorem State.reset_response : State.reset.response = none := rfl
@[simp] theorem State.reset_request : State.reset.request = .w16 0#3 ⟨0#16, 0#16, 0#16, 0#16⟩ := rfl

@[simp] theorem State.withFetchWord_request (s : State) (nbits w : Nat) :
    (s.withFetchWord nbits w).request = tableRequest nbits w := rfl
@[simp] theorem State.withFetchWord_response (s : State) (nbits w : Nat) :
    (s.withFetchWord nbits w).response = none := rfl

/-- What `respond` can do: it delivers its response and nothing else. -/
theorem respond_eq (v : Response) (s : State) : respond v s = .next { s with response := some v } := rfl

/-- If `respond` answers `t`, then `t` is `s` with the response. -/
theorem respond_next_iff (v : Response) (s t : State) :
    respond v s = .next t ↔ t = { s with response := some v } := by
  simp only [respond_eq, Host.Outcome.next.injEq, eq_comm]

end Sys2Proof.Machine
end

