-- ==== Sys2Proof/Laws/Exec.lean ====
section
/-! SUPPORT. One lemma per operation, at both widths: what it is for a value to be its answer. Claims about `exec` become
claims about the arithmetic of `Laws/Arithmetic.lean`. -/

namespace Sys2Proof.Machine

theorem Response.of_injective (w : Width) {v v' : BitVec w.bits} (h : Response.of w v = Response.of w v') : v = v' := by
  cases w <;> simpa [Response.of] using h

@[simp] theorem Response.of_width (w : Width) (v : BitVec w.bits) : (Response.of w v).width = w := by
  cases w <;> rfl

/-- Which values an operation that responds with `v'` answers: `v'` and no other. -/
theorem answers_iff {w : Width} {i : Instr} {v' : BitVec w.bits} (h : ∀ s, exec i s = respond (Response.of w v') s)
    (v : BitVec w.bits) : Answers w i v ↔ v = v' := by
  constructor
  · intro ha
    have := ha State.reset
    rw [h, respond_eq] at this
    exact Response.of_injective w (by simpa using this.symm)
  · rintro rfl s
    rw [h, respond_eq]

variable (w : Width) (t1 t2 ovf k mx v : BitVec w.bits)

theorem exec_past (s : State) :
    exec (.past w t1 t2) s = respond (.of w (b2v w.bits (Machine.past t1 t2))) s := by cases w <;> rfl
theorem exec_pastRaw (s : State) :
    exec (.pastRaw w t1 t2 ovf) s = respond (.of w (b2v w.bits (Machine.pastRaw t1 t2 ovf))) s := by cases w <;> rfl
theorem exec_add (s : State) : exec (.add w t1 k) s = respond (.of w (t1 + k)) s := by cases w <;> rfl
theorem exec_addRaw (s : State) : exec (.addRaw w t1 k mx) s = respond (.of w (Machine.addRaw t1 k mx)) s := by
  cases w <;> rfl
theorem exec_sub (s : State) : exec (.sub w t1 t2) s = respond (.of w (t1 - t2)) s := by cases w <;> rfl
theorem exec_subRaw (s : State) :
    exec (.subRaw w t1 t2 ovf mx) s = respond (.of w (Machine.subRaw t1 t2 ovf mx)) s := by cases w <;> rfl

theorem answers_past : Answers w (.past w t1 t2) v ↔ v = b2v w.bits (Machine.past t1 t2) :=
  answers_iff (exec_past w t1 t2) v
theorem answers_pastRaw : Answers w (.pastRaw w t1 t2 ovf) v ↔ v = b2v w.bits (Machine.pastRaw t1 t2 ovf) :=
  answers_iff (exec_pastRaw w t1 t2 ovf) v
theorem answers_add : Answers w (.add w t1 k) v ↔ v = t1 + k := answers_iff (exec_add w t1 k) v
theorem answers_addRaw : Answers w (.addRaw w t1 k mx) v ↔ v = Machine.addRaw t1 k mx :=
  answers_iff (exec_addRaw w t1 k mx) v
theorem answers_sub : Answers w (.sub w t1 t2) v ↔ v = t1 - t2 := answers_iff (exec_sub w t1 t2) v
theorem answers_subRaw : Answers w (.subRaw w t1 t2 ovf mx) v ↔ v = Machine.subRaw t1 t2 ovf mx :=
  answers_iff (exec_subRaw w t1 t2 ovf mx) v

/-- Every operation is one of the six, at one of the two widths. -/
theorem Instr.cases_by_width {P : Instr → Prop} (hp : ∀ w t1 t2, P (.past w t1 t2))
    (hpr : ∀ w t1 t2 ovf, P (.pastRaw w t1 t2 ovf)) (ha : ∀ w t1 k, P (.add w t1 k))
    (har : ∀ w t1 k mx, P (.addRaw w t1 k mx)) (hs : ∀ w t1 t2, P (.sub w t1 t2))
    (hsr : ∀ w t1 t2 ovf mx, P (.subRaw w t1 t2 ovf mx)) (i : Instr) : P i := by
  cases i with
  | past16 a b => exact hp .w16 a b
  | pastRaw16 a b c => exact hpr .w16 a b c
  | add16 a b => exact ha .w16 a b
  | addRaw16 a b c => exact har .w16 a b c
  | sub16 a b => exact hs .w16 a b
  | subRaw16 a b c d => exact hsr .w16 a b c d
  | past32 a b => exact hp .w32 a b
  | pastRaw32 a b c => exact hpr .w32 a b c
  | add32 a b => exact ha .w32 a b
  | addRaw32 a b c => exact har .w32 a b c
  | sub32 a b => exact hs .w32 a b
  | subRaw32 a b c d => exact hsr .w32 a b c d

/-- What `exec` can do: it responds, always with the same response, whatever the state. -/
theorem exec_eq_respond (i : Instr) : ∃ v, ∀ s, exec i s = respond v s := by
  induction i using Instr.cases_by_width with
  | hp w a b => exact ⟨_, exec_past w a b⟩
  | hpr w a b c => exact ⟨_, exec_pastRaw w a b c⟩
  | ha w a b => exact ⟨_, exec_add w a b⟩
  | har w a b c => exact ⟨_, exec_addRaw w a b c⟩
  | hs w a b => exact ⟨_, exec_sub w a b⟩
  | hsr w a b c d => exact ⟨_, exec_subRaw w a b c d⟩

/-- What a step can do: respond to the operation decoded, or refuse the reserved code. -/
theorem step_cases (s : State) :
    (∃ i v, decode s.request = .ok i ∧ (∀ s', exec i s' = respond v s') ∧ step s = respond v s) ∨
    (∃ o, decode s.request = .error (.reservedFunction o) ∧ step s = .refused (.reservedOpsel o)) := by
  cases h : decode s.request with
  | ok i =>
    obtain ⟨v, hv⟩ := exec_eq_respond i
    exact .inl ⟨i, v, rfl, hv, by simp [step, h, hv]⟩
  | error e =>
    cases e with
    | reservedFunction o => exact .inr ⟨o, rfl, by simp [step, h, refusalOf]⟩

/-- The step at a request that decodes. -/
theorem step_of_decode {s : State} {i : Instr} (h : decode s.request = .ok i) : step s = exec i s := by
  simp [step, h]

/-- Evaluating a request that decodes. -/
theorem evaluate_of_decode {r : Request} {i : Instr} (h : decode r = .ok i) (s : State) :
    evaluate r s = exec i (s.present r) := by
  simp [evaluate, step, h]

end Sys2Proof.Machine
end

