-- ==== Sys2Proof/Laws/PerInstr.lean ====
section
/-! SUPPORT. The per-instruction families of LAWS.json. EncodedCode: the encoder puts on `opsel` the code the table of
30_encoding.md R52 gives the operation, and that code's width bit names the operation's instance. -/

namespace Sys2Proof.Laws.EncodedCode

/-- The request an operation encodes to carries its code, and the code names its instance. -/
def Statement (i : Instr) : Prop :=
  (encode i).opsel = i.code ∧ opselWidth i.code = i.width ∧ (encode i).wellFormed = true ∧ i.wellFormed = true

/-- From the code and the width of an operation as closed terms. -/
theorem of_code {i : Instr} {o : Opsel} {w : Width} (ho : (encode i).opsel = o) (hc : i.code = o) (hw : i.width = w)
    (h : opselWidth o = w) (hr : (encode i).wellFormed = true) (hi : i.wellFormed = true) : Statement i :=
  ⟨ho.trans hc.symm, by rw [hc, hw, h], hr, hi⟩

theorem past16 (a b : TickCount 16) : Statement (.past16 a b) :=
  of_code (w := .w16) (o := 0x0#4) rfl rfl rfl (by decide) rfl rfl
theorem pastRaw16 (a b c : TickCount 16) : Statement (.pastRaw16 a b c) :=
  of_code (w := .w16) (o := 0x1#4) rfl rfl rfl (by decide) rfl rfl
theorem add16 (a b : TickCount 16) : Statement (.add16 a b) :=
  of_code (w := .w16) (o := 0x2#4) rfl rfl rfl (by decide) rfl rfl
theorem addRaw16 (a b c : TickCount 16) : Statement (.addRaw16 a b c) :=
  of_code (w := .w16) (o := 0x3#4) rfl rfl rfl (by decide) rfl rfl
theorem sub16 (a b : TickCount 16) : Statement (.sub16 a b) :=
  of_code (w := .w16) (o := 0x4#4) rfl rfl rfl (by decide) rfl rfl
theorem subRaw16 (a b c d : TickCount 16) : Statement (.subRaw16 a b c d) :=
  of_code (w := .w16) (o := 0x5#4) rfl rfl rfl (by decide) rfl rfl
theorem past32 (a b : TickCount 32) : Statement (.past32 a b) :=
  of_code (w := .w32) (o := 0x8#4) rfl rfl rfl (by decide) rfl rfl
theorem pastRaw32 (a b c : TickCount 32) : Statement (.pastRaw32 a b c) :=
  of_code (w := .w32) (o := 0x9#4) rfl rfl rfl (by decide) rfl rfl
theorem add32 (a b : TickCount 32) : Statement (.add32 a b) :=
  of_code (w := .w32) (o := 0xA#4) rfl rfl rfl (by decide) rfl rfl
theorem addRaw32 (a b c : TickCount 32) : Statement (.addRaw32 a b c) :=
  of_code (w := .w32) (o := 0xB#4) rfl rfl rfl (by decide) rfl rfl
theorem sub32 (a b : TickCount 32) : Statement (.sub32 a b) :=
  of_code (w := .w32) (o := 0xC#4) rfl rfl rfl (by decide) rfl rfl
theorem subRaw32 (a b c d : TickCount 32) : Statement (.subRaw32 a b c d) :=
  of_code (w := .w32) (o := 0xD#4) rfl rfl rfl (by decide) rfl rfl

end Sys2Proof.Laws.EncodedCode
end

