-- ==== Sys2Proof/Tests/Slice0.lean ====
section
/-! SUPPORT. The model's own tests. Expected values are the vectors of 95_test_vectors.md, named in each comment (S, M and
V numbers), and the decode vectors of its section 4; no value here was read off the model. -/

namespace Sys2Proof.Tests

open Sys2Proof Sys2Proof.Machine

/-! ## Well-formedness: one ill-formed term for each check -/

theorem test_width_8_refused : isCoreWidth 8 = false ∧ isCoreWidth 64 = false := by decide
theorem test_widths_16_32_accepted : isCoreWidth 16 = true ∧ isCoreWidth 32 = true := by decide
theorem test_reserved_requests_ill_formed :
    (Request.w16 0b110#3 ⟨1, 2, 3, 4⟩).wellFormed = false ∧ (Request.w16 0b111#3 ⟨1, 2, 3, 4⟩).wellFormed = false ∧
    (Request.w32 0b110#3 ⟨1, 2, 3, 4⟩).wellFormed = false ∧ (Request.w32 0b111#3 ⟨1, 2, 3, 4⟩).wellFormed = false := by
  decide
theorem test_operation_well_formed : (Instr.subRaw16 0xFFFF 0 0xFFFF 0).wellFormed = true := by decide

/-! ## Decoding: requests written out from 30_encoding.md R51 to R53, the four fields told apart as 1, 2, 3, 4 -/

theorem test_decode_past16 : decode (.w16 0b000#3 ⟨1, 2, 3, 4⟩) = .ok (.past16 1 2) := rfl
theorem test_decode_pastRaw16 : decode (.w16 0b001#3 ⟨1, 2, 3, 4⟩) = .ok (.pastRaw16 1 2 3) := rfl
theorem test_decode_add16 : decode (.w16 0b010#3 ⟨1, 2, 3, 4⟩) = .ok (.add16 1 2) := rfl
theorem test_decode_addRaw16 : decode (.w16 0b011#3 ⟨1, 2, 3, 4⟩) = .ok (.addRaw16 1 2 4) := rfl
theorem test_decode_sub16 : decode (.w16 0b100#3 ⟨1, 2, 3, 4⟩) = .ok (.sub16 1 2) := rfl
theorem test_decode_subRaw16 : decode (.w16 0b101#3 ⟨1, 2, 3, 4⟩) = .ok (.subRaw16 1 2 3 4) := rfl
theorem test_decode_past32 : decode (.w32 0b000#3 ⟨1, 2, 3, 4⟩) = .ok (.past32 1 2) := rfl
theorem test_decode_pastRaw32 : decode (.w32 0b001#3 ⟨1, 2, 3, 4⟩) = .ok (.pastRaw32 1 2 3) := rfl
theorem test_decode_add32 : decode (.w32 0b010#3 ⟨1, 2, 3, 4⟩) = .ok (.add32 1 2) := rfl
theorem test_decode_addRaw32 : decode (.w32 0b011#3 ⟨1, 2, 3, 4⟩) = .ok (.addRaw32 1 2 4) := rfl
theorem test_decode_sub32 : decode (.w32 0b100#3 ⟨1, 2, 3, 4⟩) = .ok (.sub32 1 2) := rfl
theorem test_decode_subRaw32 : decode (.w32 0b101#3 ⟨1, 2, 3, 4⟩) = .ok (.subRaw32 1 2 3 4) := rfl
theorem test_decode_reserved16 : decode (.w16 0b110#3 ⟨1, 2, 3, 4⟩) = .error (.reservedFunction 0x6) := rfl
theorem test_decode_reserved32 : decode (.w32 0b111#3 ⟨1, 2, 3, 4⟩) = .error (.reservedFunction 0xF) := rfl

/-- The sixteen codes of 95_test_vectors.md section 4, as table words. -/
theorem test_decode_vectors :
    (List.range 16).map (fun o => (decodeTableWord 8 o).map mnemonic) =
      [some "past.16", some "past_raw.16", some "add.16", some "add_raw.16", some "sub.16", some "sub_raw.16", none, none,
       some "past.32", some "past_raw.32", some "add.32", some "add_raw.32", some "sub.32", some "sub_raw.32", none, none] := by
  decide

/-- A table word runs as the first operation after reset. -/
theorem test_first_step_after_reset :
    step (State.reset.withFetchWord 8 0xD) = exec (.subRaw32 0 0 0 0) (State.reset.withFetchWord 8 0xD) := rfl

/-! ## One evaluation: 95_test_vectors.md sections 1 and 2. Ignored fields hold 0xDEAD or 0xDEADBEEF. -/

/-- The response to a request, evaluated right after reset. -/
def answer (r : Request) : Option Response :=
  match evaluate r State.reset with
  | .next s => s.response
  | .fault _ => none
  | .refused _ => none

/-- V-P6: equal operands (90_conflicts.md C1). -/
theorem test_past16_equal : answer (.w16 0b000#3 ⟨0x1234, 0x1234, 0xDEAD, 0xDEAD⟩) = some (.w16 1) := by decide
/-- V-P25: forward distance exactly OVF. -/
theorem test_past16_at_threshold : answer (.w16 0b000#3 ⟨0, 0x7FFF, 0xDEAD, 0xDEAD⟩) = some (.w16 0) := by decide
/-- V-P28. -/
theorem test_pastRaw16_wrap : answer (.w16 0b001#3 ⟨0xFFF0, 0x000A, 0x7FFF, 0xDEAD⟩) = some (.w16 1) := by decide
/-- Program P3, line 10. -/
theorem test_pastRaw16_reduced : answer (.w16 0b001#3 ⟨0x0FF0, 0x0010, 0x07FF, 0xDEAD⟩) = some (.w16 1) := by decide
/-- M10: negative ticks. -/
theorem test_add16_negative : answer (.w16 0b010#3 ⟨0xFFF0, 0xFFE0, 0xDEAD, 0xDEAD⟩) = some (.w16 0xFFD0) := by decide
/-- V-A8: the most negative ticks. -/
theorem test_add16_most_negative : answer (.w16 0b010#3 ⟨0x8000, 0x8000, 0xDEAD, 0xDEAD⟩) = some (.w16 0) := by decide
/-- V-A13: a modulus that does not divide 2^16. -/
theorem test_addRaw16_modulus_10 : answer (.w16 0b011#3 ⟨3, 0xFFFB, 0xDEAD, 9⟩) = some (.w16 4) := by decide
/-- V-A18: the native sum wraps. -/
theorem test_addRaw16_native_wrap : answer (.w16 0b011#3 ⟨0xEA56, 0x4E20, 0xDEAD, 0xEA5F⟩) = some (.w16 0x3876) := by
  decide
/-- M7. -/
theorem test_sub16_wrap : answer (.w16 0b100#3 ⟨0xFFF0, 0x000A, 0xDEAD, 0xDEAD⟩) = some (.w16 0xFFE6) := by decide
/-- V-S9: half the circle apart. -/
theorem test_sub16_half : answer (.w16 0b100#3 ⟨0, 0x8000, 0xDEAD, 0xDEAD⟩) = some (.w16 0x8000) := by decide
/-- V-S16: the wrapped arm under an odd modulus. -/
theorem test_subRaw16_odd_modulus : answer (.w16 0b101#3 ⟨8, 2, 5, 10⟩) = some (.w16 0xFFFB) := by decide
/-- V-S22: a result that does not fit is delivered modulo 2^16. -/
theorem test_subRaw16_does_not_fit : answer (.w16 0b101#3 ⟨1, 0, 0, 0xFFFF⟩) = some (.w16 1) := by decide
/-- V-P9: forward distance OVF across the wrap. -/
theorem test_past32_wrap : answer (.w32 0b000#3 ⟨0xFFFFFFFF, 0x7FFFFFFE, 0xDEADBEEF, 0xDEADBEEF⟩) = some (.w32 1) := by
  decide
/-- V-P8: backward difference exactly OVF. -/
theorem test_past32_at_threshold : answer (.w32 0b000#3 ⟨0x7FFFFFFF, 0, 0xDEADBEEF, 0xDEADBEEF⟩) = some (.w32 0) := by
  decide
/-- V-P20 and V-P21: backward difference at and above the threshold. -/
theorem test_pastRaw32_threshold :
    answer (.w32 0b001#3 ⟨0x6E, 0x64, 0xA, 0xDEADBEEF⟩) = some (.w32 0) ∧
    answer (.w32 0b001#3 ⟨0x6F, 0x64, 0xA, 0xDEADBEEF⟩) = some (.w32 1) := by decide
/-- V-P15: the largest threshold. -/
theorem test_pastRaw32_largest_threshold :
    answer (.w32 0b001#3 ⟨0, 0xFFFFFFFF, 0xFFFFFFFF, 0xDEADBEEF⟩) = some (.w32 0) := by decide
/-- S10. -/
theorem test_add32_negative :
    answer (.w32 0b010#3 ⟨0xFFFFFFF0, 0xFFFFFFE0, 0xDEADBEEF, 0xDEADBEEF⟩) = some (.w32 0xFFFFFFD0) := by decide
/-- V-A4. -/
theorem test_add32_most_negative :
    answer (.w32 0b010#3 ⟨0x12345678, 0x80000000, 0xDEADBEEF, 0xDEADBEEF⟩) = some (.w32 0x92345678) := by decide
/-- S11. -/
theorem test_addRaw32_document :
    answer (.w32 0b011#3 ⟨0x00FFFFF0, 0x20, 0xDEADBEEF, 0x00FFFFFF⟩) = some (.w32 0x10) := by decide
/-- V-A20: 429496729 rounds of the document's loop. -/
theorem test_addRaw32_many_rounds : answer (.w32 0b011#3 ⟨3, 0xFFFFFFFB, 0xDEADBEEF, 9⟩) = some (.w32 4) := by decide
/-- S8. -/
theorem test_sub32_document :
    answer (.w32 0b100#3 ⟨10, 0xFFFFFFF0, 0xDEADBEEF, 0xDEADBEEF⟩) = some (.w32 0x1A) := by decide
/-- V-S29: no 16-bit wrap at 32 bits. -/
theorem test_sub32_no_wrap : answer (.w32 0b100#3 ⟨0xFFF0, 0xA, 0xDEADBEEF, 0xDEADBEEF⟩) = some (.w32 0xFFE6) := by decide
/-- S12. -/
theorem test_subRaw32_document :
    answer (.w32 0b101#3 ⟨0x10, 0x00FFFFF0, 0x007FFFFF, 0x00FFFFFF⟩) = some (.w32 0x20) := by decide
/-- V-S24: `time1` above `max_value`; one modulus is folded, no more. -/
theorem test_subRaw32_outside_contract :
    answer (.w32 0b101#3 ⟨0x02000000, 0, 0x007FFFFF, 0x00FFFFFF⟩) = some (.w32 0x01000000) := by decide
/-- A reserved code has no response, whatever its fields hold (R56). -/
theorem test_reserved_refused :
    evaluate (.w32 0b110#3 ⟨1, 2, 3, 4⟩) State.reset = .refused (.reservedOpsel 0xE) := rfl
/-- The `reads as` column of S7, V-P1 and S10. -/
theorem test_readings :
    readResponse (.sub32 0xFFFFFFF0 10) (.w32 0xFFFFFFE6) = .delta (-26) ∧
    readResponse (.past32 0 1) (.w32 1) = .truth true ∧
    readResponse (.add32 0xFFFFFFF0 0xFFFFFFE0) (.w32 0xFFFFFFD0) = .count 4294967248 := by decide
/-- The textual form of R58, with a signed `ticks`. -/
theorem test_text : text (.add32 16 0xFFFFFFE0) = "add.32(16, -32)" := by decide

/-! ## Witnesses: for each statement with hypotheses, a state and operands that meet them, clause by clause -/

/-- A request that is answered. -/
def r0 : Request := .w16 0b000#3 ⟨5, 5, 1, 2⟩

/-- The state after its evaluation. -/
def s0 : State := { request := r0, response := some (.w16 1) }

theorem witness_ReservedCodesAreRefused :
    (∃ s : State, s.request = .of .w16 0b110#3 ⟨1, 2, 3, 4⟩) ∧ (∃ s : State, s.request = .of .w32 0b111#3 ⟨1, 2, 3, 4⟩) ∧
    (∃ s e, step s = .refused e) ∧ (∃ s : State, s.request = .of .w16 0b101#3 ⟨1, 2, 3, 4⟩) :=
  ⟨⟨⟨_, none⟩, rfl⟩, ⟨⟨_, none⟩, rfl⟩, ⟨⟨.w16 0b110#3 ⟨1, 2, 3, 4⟩, none⟩, .reservedOpsel 0x6, rfl⟩, ⟨⟨_, none⟩, rfl⟩⟩
theorem witness_EncodeUndoesDecode : decode r0 = .ok (.past16 5 5) := rfl
theorem witness_NoTwoOperationsShareACode : (Instr.past16 1 2).code = (Instr.past16 3 4).code := rfl
theorem witness_PatternAndSignedReadingAgree :
    (0x7FFF#16).toNat < 2 ^ (Width.w16.bits - 1) ∧ 2 ^ (Width.w16.bits - 1) ≤ (0x8000#16).toNat := by decide
theorem witness_StepRunsTheDecodedOperation :
    decode s0.request = .ok (.past16 5 5) ∧
    decode (Request.w32 0b111#3 ⟨1, 2, 3, 4⟩) = .error (.reservedFunction 0xF) ∧
    decodeTableWord 8 0x4 = some (.sub16 0 0) := ⟨rfl, rfl, rfl⟩
theorem witness_EveryDefinedRequestIsAnswered : s0.request.opsel ∉ [0x6#4, 0x7#4, 0xE#4, 0xF#4] := by decide
theorem witness_OperationsChangeOnlyTheResponse : exec (.past16 5 5) State.reset = .next (State.reset.deliver (.w16 1)) :=
  rfl
theorem witness_StepDependsOnTheRequestAlone : s0.request = (s0.present r0).request ∧ s0 ≠ s0.present r0 := by decide
theorem witness_ResponseComesFromTheRequestedInstance : step (s0.present r0) = .next s0 := rfl
theorem witness_EvaluationIsIdempotent : step (s0.present r0) = .next s0 := rfl
theorem witness_StepKeepsTheBoundaryInvariant : s0.Inv ∧ step s0 = .next s0 :=
  ⟨fun _ h => ⟨.past16 5 5, rfl, .inr (Option.some.inj h.symm)⟩, rfl⟩
theorem witness_SequenceCompletesAndCommutes :
    (∀ r ∈ [r0, .w32 0b010#3 ⟨1, 2, 3, 4⟩], r.wellFormed = true) ∧
    [r0, .w32 0b010#3 ⟨1, 2, 3, 4⟩].Perm [.w32 0b010#3 ⟨1, 2, 3, 4⟩, r0] ∧
    evaluateAll [r0, .w32 0b010#3 ⟨1, 2, 3, 4⟩] State.reset = .next [.w16 1, .w32 3] :=
  ⟨by decide, .swap _ _ _, rfl⟩
theorem witness_PastUsesTheHalfRangeThreshold :
    ((0#16) ≤ 0x7FFF#16 ∧ 0x7FFF#16 - 0#16 = maxValueOverflow 16) ∧
    ((0#16) < 0x7FFF#16 ∧ 0x7FFF#16 - 0#16 = maxValueOverflow 16) ∧
    ((0#16) < 0x8000#16 ∧ 0x8000#16 - 0#16 = maxValueOverflow 16 + 1#16) := by decide
theorem witness_PastByForwardDistance : (0#16) < 1#16 := by decide
theorem witness_PastRawAtTheThreshold :
    (10#16).toNat = (3#16).toNat + (7#16).toNat ∧ ((3#16) ≤ 9#16 ∧ (9#16).toNat + 1 = (3#16).toNat + (7#16).toNat) ∧
    ((3#16) < 10#16 ∧ (10#16).toNat = (3#16).toNat + (7#16).toNat) ∧
    (11#16).toNat = (3#16).toNat + (7#16).toNat + 1 ∧ (3#16) ≠ 10#16 := by decide
theorem witness_PastAgreesWithTrueOrder :
    PastContract (2 ^ 16) (0x8000#16).toNat 0x7FFF ∧ 2 ^ (16 - 1) < (0x8001#16).toNat ∧
    1 ≤ 0x7FFE ∧ 0x7FFE ≤ 2 ^ (16 - 1) - 2 := by unfold PastContract; decide
theorem witness_PastRawOrdersAReducedCounter :
    (0x0FFF#16) ≤ 0x0FFF#16 ∧ PastContract ((0x0FFF#16).toNat + 1) (0x0800#16).toNat 0x07FF := by
  unfold PastContract; decide
theorem witness_AddRawRunsTheNormalisationLoop : maxValue 16 = 0xFFFF#16 ∧ (0#16) = 0#16 := by decide
theorem witness_AddRawIsTheUniqueResidue : maxValue 32 = 0xFFFFFFFF#32 := by decide
theorem witness_NormalisationLoopTerminates : NormalizeLoop 9#16 12#16 1 2#16 :=
  .round _ _ _ (by decide) (.stop _ (by decide))
theorem witness_AddRawIsTheModularSumWithinTheNativeRange :
    (0 ≤ ((3#16).toNat : Int) + (5#16).toInt ∧ ((3#16).toNat : Int) + (5#16).toInt ≤ 2 ^ 16 - 1) ∧
    ((0x0FFF#16).toNat + 1) ∣ 2 ^ 16 := by decide
theorem witness_SubIsTwosComplementSubtraction :
    (0x8000#16).toNat = (0#16).toNat + 2 ^ (16 - 1) ∧ (0xFFFF#16).toNat = (0x7FFF#16).toNat + 2 ^ (16 - 1) := by decide
theorem witness_SubRawAtTheThreshold :
    ((2#16) < 7#16 ∧ (7#16).toNat - (2#16).toNat ≤ (5#16).toNat) ∧
    ((2#16) < 8#16 ∧ (5#16).toNat + 1 ≤ (8#16).toNat - (2#16).toNat) := by decide
theorem witness_SubRawFitsUnderTheDefaultRelation :
    SubContract (0x7FFF#16) 0xFFFF#16 0x7FFF#16 (maxValue 16) ∧
    (0xFFFF#16).toNat = (0x7FFF#16).toNat + 2 ^ (16 - 1) ∧
    SubContract (0x0800#16) 0#16 0x07FF#16 0x0FFF#16 ∧ |foldedDistance (0x0800#16) 0#16 0x07FF#16 0x0FFF#16| = 0x07FF + 1 := by
  unfold SubContract; decide
theorem witness_SubRawIsTheTrueDistance :
    SubContract (2#16) 7#16 5#16 10#16 ∧ |(-5 : Int)| ≤ (5#16).toNat ∧
    ((2#16).toNat : Int) = (((7#16).toNat : Int) + -5) % ((10#16).toNat + 1) := by unfold SubContract; decide
theorem witness_SubRawAtExtremeParameters :
    (1#16) < 3#16 ∧ (0#16).toNat < (3#16).toNat - (1#16).toNat := by decide
theorem witness_AddRoundTrip : -(2 ^ (16 - 1)) ≤ (-32768 : Int) ∧ (-32768 : Int) ≤ 2 ^ (16 - 1) - 1 := by decide
theorem witness_PastOfEqualOperands : (0#16) ≠ 0x7FFF#16 := by decide
theorem witness_SubIsAntisymmetric : (0x8000#16).toNat = (0#16).toNat + 2 ^ (16 - 1) := by decide
theorem witness_SubRawUndoesAddRaw :
    (0x0FFF#16) ≤ 0x0FFF#16 ∧ (0x07FF#16).toNat = (0x0FFF#16).toNat / 2 ∧ |(-0x07FF : Int)| ≤ (0x07FF#16).toNat ∧
    ((0x0FFF#16).toNat + 1) ∣ 2 ^ 16 ∧
    (0 ≤ ((0x0FFF#16).toNat : Int) + -0x07FF ∧ ((0x0FFF#16).toNat : Int) + -0x07FF ≤ 2 ^ 16 - 1) := by decide
theorem witness_PastRawAgreesWithTheSignOfSubRaw : SubContract (8#16) 2#16 5#16 10#16 := by unfold SubContract; decide
theorem witness_RotationOfTheCircle :
    (1 ≤ (0x7FFE#16 - 0#16).toNat ∧ (0x7FFE#16 - 0#16).toNat ≤ 2 ^ (16 - 1) - 2) ∧
    (1 ≤ (0x7FFF#16 - 0#16).toNat ∧ (0x7FFF#16 - 0#16).toNat ≤ 2 ^ (16 - 1) - 1) := by decide

end Sys2Proof.Tests
end

section
/-! PROOFS. The two constants of an instance (00_scope.md R8, R9). -/

namespace Sys2Proof.Machine

variable {W : Nat}

/-- R9's shift as a floor: the default threshold is half of the largest count, rounded down. -/
theorem maxValueOverflow_toNat_eq_half : (maxValueOverflow W).toNat = (maxValue W).toNat / 2 := by
  rw [maxValueOverflow_toNat, maxValue_toNat]

/-- R9's value as a power: halving `2 ^ W - 1` drops its lowest bit. -/
theorem maxValueOverflow_toNat_eq_pow (hW : 0 < W) : (maxValueOverflow W).toNat = 2 ^ (W - 1) - 1 := by
  have hpow : 2 ^ W = 2 * 2 ^ (W - 1) := (mul_pow_sub_one hW.ne' 2).symm
  rw [maxValueOverflow_toNat, hpow]
  omega

/-- Both instances have at least one bit. -/
theorem width_bits_pos (w : Width) : 0 < w.bits := by cases w <;> decide

/-- Settles O1: the values follow for every width from the number that each constant denotes; the four literals are
the closed instances at 16 and 32 bits. -/
theorem constantsHaveTheirValues : Obligations.ConstantsHaveTheirValues := by
  unfold Obligations.ConstantsHaveTheirValues
  refine ⟨fun _ => maxValue_toNat, ?max16, ?max32, fun w => ⟨?shift, ?half, ?pow⟩, ?overflow16, ?overflow32⟩
  case shift => rfl
  case half => exact maxValueOverflow_toNat_eq_half
  case pow => exact maxValueOverflow_toNat_eq_pow (width_bits_pos w)
  case max16 | max32 | overflow16 | overflow32 => decide

end Sys2Proof.Machine
end

section
/-! PROOFS. The decoder row by row at both widths (30_encoding.md R52, R53), which requests it rejects (R56), and what a
step and an evaluation do at a request it accepts or rejects. -/

namespace Sys2Proof

/-- The code of a request named by width and `opsel[2:0]` is that pair. -/
@[simp] theorem Request.of_opsel (w : Width) (sel : BitVec 3) (f : Fields w.bits) :
    (Request.of w sel f).opsel = opselOf w sel := by cases w <;> rfl

section DecodeRows

variable (w : Width) (f : Fields w.bits)

@[simp] theorem decode_of_past : decode (.of w 0b000#3 f) = .ok (.past w f.a f.b) := by cases w <;> rfl
@[simp] theorem decode_of_pastRaw : decode (.of w 0b001#3 f) = .ok (.pastRaw w f.a f.b f.ovf) := by cases w <;> rfl
@[simp] theorem decode_of_add : decode (.of w 0b010#3 f) = .ok (.add w f.a f.b) := by cases w <;> rfl
@[simp] theorem decode_of_addRaw : decode (.of w 0b011#3 f) = .ok (.addRaw w f.a f.b f.maxv) := by cases w <;> rfl
@[simp] theorem decode_of_sub : decode (.of w 0b100#3 f) = .ok (.sub w f.a f.b) := by cases w <;> rfl
@[simp] theorem decode_of_subRaw : decode (.of w 0b101#3 f) = .ok (.subRaw w f.a f.b f.ovf f.maxv) := by
  cases w <;> rfl

/-- Both values with `opsel[2:1] = 0b11` are rejected, by name and with the whole code. -/
theorem decode_of_reserved {sel : BitVec 3} (h : sel = 0b110#3 ∨ sel = 0b111#3) :
    decode (.of w sel f) = .error (.reservedFunction (opselOf w sel)) := by
  rcases h with rfl | rfl <;> cases w <;> rfl

end DecodeRows

/-- A well-formed request, by the part of its code below the width bit. -/
theorem Request.wellFormed_of_iff (w : Width) (sel : BitVec 3) (f : Fields w.bits) :
    (Request.of w sel f).wellFormed = true ↔ sel ≠ 0b110#3 ∧ sel ≠ 0b111#3 := by
  have hsel : (sel.extractLsb' 1 2 != 0b11#2) = true ↔ sel ≠ 0b110#3 ∧ sel ≠ 0b111#3 := by
    revert sel; decide
  cases w <;> exact hsel

/-- Every request is to one of the two widths. -/
theorem Request.exists_eq_of (r : Request) : ∃ w sel f, r = Request.of w sel f := by
  cases r with
  | w16 sel f => exact ⟨.w16, sel, f, rfl⟩
  | w32 sel f => exact ⟨.w32, sel, f, rfl⟩

/-- A well-formed request, by its whole code: the four reserved codes of R56 are the ill-formed ones. -/
theorem Request.wellFormed_iff_opsel (r : Request) :
    r.wellFormed = true ↔ r.opsel ∉ [0x6#4, 0x7#4, 0xE#4, 0xF#4] := by
  obtain ⟨w, sel, f, rfl⟩ := r.exists_eq_of
  rw [Request.wellFormed_of_iff, Request.of_opsel]
  cases w <;> revert sel <;> decide

namespace Machine

/-- The step at a request the decoder rejects. -/
theorem step_of_reject {s : State} {e : Reject} (h : decode s.request = .error e) : step s = .refused (refusalOf e) := by
  simp [step, h]

/-- A well-formed request is answered, and only the response changes. -/
theorem step_of_wellFormed {s : State} (h : s.request.wellFormed = true) :
    ∃ v, step s = .next { s with response := some v } := by
  obtain ⟨i, hi⟩ := (decode_ok_iff s.request).mpr h
  obtain ⟨v, hv⟩ := exec_eq_respond i
  exact ⟨v, by rw [step_of_decode hi, hv, respond_eq]⟩

/-- Only an ill-formed request is refused. -/
theorem not_wellFormed_of_step_refused {s : State} {e : Refusal} (h : step s = .refused e) :
    ¬ s.request.wellFormed = true := by
  intro hwf
  obtain ⟨v, hv⟩ := step_of_wellFormed hwf
  simp [hv] at h

/-- A request is answered by the response of the operation it decodes to. -/
theorem answeredBy_of_decode {r : Request} {i : Instr} {v : Response} (h : decode r = .ok i)
    (hv : ∀ s, exec i s = respond v s) : AnsweredBy r v := by
  intro s
  rw [evaluate_of_decode h, hv, respond_eq, State.present_request]

/-- Two requests that decode to one operation get one response. -/
theorem sameResponse_of_decode {r r' : Request} {i : Instr} (h : decode r = .ok i) (h' : decode r' = .ok i) :
    SameResponse r r' := by
  obtain ⟨v, hv⟩ := exec_eq_respond i
  exact ⟨v, answeredBy_of_decode h hv, answeredBy_of_decode h' hv⟩

end Machine

end Sys2Proof
end

section
/-! PROOFS. The opcode table, the reserved codes and the ignored fields (30_encoding.md R52, R55, R56). -/

namespace Sys2Proof.Machine

/-- Settles O4: one row of the table after the other, each at both widths. -/
theorem opselTableDecodes : Obligations.OpselTableDecodes := by
  unfold Obligations.OpselTableDecodes
  intro w a b ovf maxv
  exact ⟨decode_of_past w _, decode_of_pastRaw w _, decode_of_add w _, decode_of_addRaw w _, decode_of_sub w _,
    decode_of_subRaw w _, decode_of_reserved w _ (.inl rfl), decode_of_reserved w _ (.inr rfl), Request.of_opsel w⟩

/-- Settles O9: a step is refused exactly where the decoder rejects, and the decoder rejects exactly the ill-formed
requests, which are those with one of the four reserved codes. -/
theorem reservedCodesAreRefused : Obligations.ReservedCodesAreRefused := by
  unfold Obligations.ReservedCodesAreRefused
  refine ⟨fun w sel f s hsel hreq => ?reserved, fun s e hstep => ?only, fun w sel f s h6 h7 hreq => ?runs⟩
  case reserved =>
    have hdec : decode s.request = .error (.reservedFunction (opselOf w sel)) := hreq ▸ decode_of_reserved w f hsel
    exact ⟨hdec, step_of_reject hdec⟩
  case only =>
    have hill := not_wellFormed_of_step_refused hstep
    rw [Request.wellFormed_iff_opsel, not_not] at hill
    simpa using hill
  case runs =>
    have hwf : s.request.wellFormed = true := hreq ▸ (Request.wellFormed_of_iff w sel f).mpr ⟨h6, h7⟩
    exact step_of_wellFormed hwf

/-- Settles O10: the decoder takes no operand from an ignored field, so the two requests decode to one operation. -/
theorem ignoredFieldsHaveNoInfluence : Obligations.IgnoredFieldsHaveNoInfluence := by
  unfold Obligations.IgnoredFieldsHaveNoInfluence
  intro w a b ovf ovf' maxv maxv'
  exact ⟨sameResponse_of_decode (decode_of_past w _) (decode_of_past w _),
    sameResponse_of_decode (decode_of_pastRaw w _) (decode_of_pastRaw w _),
    sameResponse_of_decode (decode_of_add w _) (decode_of_add w _),
    sameResponse_of_decode (decode_of_addRaw w _) (decode_of_addRaw w _),
    sameResponse_of_decode (decode_of_sub w _) (decode_of_sub w _)⟩

end Sys2Proof.Machine
end

section
/-! PROOFS. The raw forms under the full modulus (30_encoding.md R59). -/

namespace Sys2Proof.Machine

variable {W : Nat}

/-- The full modulus, as a number. -/
theorem maxValue_toNat_add_one : (maxValue W).toNat + 1 = 2 ^ W := by
  rw [maxValue_toNat, Nat.sub_add_cancel Nat.one_le_two_pow]

/-- Under the full modulus there is nothing to normalise. -/
theorem addRaw_maxValue (t1 k : TickCount W) : addRaw t1 k (maxValue W) = t1 + k := by
  apply BitVec.eq_of_toNat_eq
  rw [addRaw_toNat, maxValue_toNat_add_one, Nat.mod_eq_of_lt (t1 + k).isLt]

/-- The four arms of 42_subtractor.md R110 differ from `time1 - time2` by a multiple of the modulus. -/
theorem modulus_dvd_subRawValue_sub (t1 t2 ovf mx : TickCount W) :
    (mx.toNat + 1 : Int) ∣ subRawValue t1 t2 ovf mx - ((t1.toNat : Int) - t2.toNat) := by
  rw [subRawValue_eq]
  split_ifs
  · exact ⟨-1, by ring⟩
  · exact ⟨0, by ring⟩
  · exact ⟨1, by ring⟩
  · exact ⟨0, by ring⟩

/-- Integers a multiple of `2 ^ W` apart have one pattern. -/
theorem ofInt_eq_of_dvd_sub {x y : Int} (h : (2 ^ W : Int) ∣ x - y) : BitVec.ofInt W x = BitVec.ofInt W y := by
  have hmod : x % (2 ^ W : Nat) = y % (2 ^ W : Nat) :=
    Int.emod_eq_emod_iff_emod_sub_eq_zero.mpr (Int.emod_eq_zero_of_dvd (by exact_mod_cast h))
  apply BitVec.eq_of_toNat_eq
  rw [BitVec.toNat_ofInt, BitVec.toNat_ofInt, hmod]

/-- The `W`-bit difference is the pattern of the difference of the unsigned readings. -/
theorem sub_eq_ofInt (t1 t2 : BitVec W) : t1 - t2 = BitVec.ofInt W ((t1.toNat : Int) - t2.toNat) := by
  simp [Int.sub_eq_add_neg, BitVec.ofInt_add, BitVec.ofInt_neg, BitVec.sub_eq_add_neg]

/-- Under the full modulus the threshold does not matter: every arm delivers the `W`-bit difference. -/
theorem subRaw_maxValue (t1 t2 ovf : TickCount W) : subRaw t1 t2 ovf (maxValue W) = t1 - t2 := by
  have hdvd := modulus_dvd_subRawValue_sub t1 t2 ovf (maxValue W)
  have hmod : ((maxValue W).toNat + 1 : Int) = 2 ^ W := by exact_mod_cast maxValue_toNat_add_one
  rw [hmod] at hdvd
  rw [sub_eq_ofInt]
  exact ofInt_eq_of_dvd_sub hdvd

/-- Settles O11: `past` is defined by R59's equation; `add_raw` and `sub_raw` under the full modulus are the `W`-bit sum
and difference. -/
theorem defaultFormsSpecialiseRawForms : Obligations.DefaultFormsSpecialiseRawForms := by
  unfold Obligations.DefaultFormsSpecialiseRawForms
  intro w t1 t2
  refine ⟨⟨_, (answers_past ..).mpr rfl, (answers_pastRaw ..).mpr ?past⟩,
    ⟨t1 + t2, (answers_add ..).mpr rfl, (answers_addRaw ..).mpr ?add, rfl⟩,
    ⟨t1 - t2, (answers_sub ..).mpr rfl, (answers_subRaw ..).mpr ?sub, rfl⟩⟩
  case past => rfl
  case add => exact (addRaw_maxValue t1 t2).symm
  case sub => exact (subRaw_maxValue t1 t2 _).symm

end Sys2Proof.Machine
end

section
/-! PROOFS. How a response is carried and read (30_encoding.md R60). -/

namespace Sys2Proof.Machine

/-- A boolean on `res` as a number: 1 or 0, so the bits above `res[0]` are zero. -/
theorem b2v_toNat {W : Nat} (hW : 0 < W) (p : Bool) : (b2v W p).toNat = p.toNat := by
  cases p with
  | false => simp [b2v]
  | true => simp [b2v, Nat.mod_eq_of_lt (Nat.one_lt_two_pow hW.ne')]

/-- `res[0]` of a boolean is the boolean. -/
theorem b2v_getLsbD_zero {W : Nat} (hW : 0 < W) (p : Bool) : (b2v W p).getLsbD 0 = p := by
  cases p <;> simp [b2v, hW]

/-- The caller reads the pattern by the operation's result type, at either width. -/
theorem readResponse_of (i : Instr) (w : Width) (v : BitVec w.bits) :
    readResponse i (.of w v) = readPattern (resultType i) v := by cases w <;> rfl

section ResultTypes

variable (w : Width) (t1 t2 ovf mx : BitVec w.bits)

@[simp] theorem resultType_past : resultType (.past w t1 t2) = .bool := by cases w <;> rfl
@[simp] theorem resultType_pastRaw : resultType (.pastRaw w t1 t2 ovf) = .bool := by cases w <;> rfl
@[simp] theorem resultType_add : resultType (.add w t1 t2) = .tickCount := by cases w <;> rfl
@[simp] theorem resultType_addRaw : resultType (.addRaw w t1 t2 mx) = .tickCount := by cases w <;> rfl
@[simp] theorem resultType_sub : resultType (.sub w t1 t2) = .tickDelta := by cases w <;> rfl
@[simp] theorem resultType_subRaw : resultType (.subRaw w t1 t2 ovf mx) = .tickDelta := by cases w <;> rfl

end ResultTypes

section Readings

variable {i : Instr} {w : Width}

/-- An ordering operation's response reads back as the boolean it carries. -/
theorem readResponse_b2v (h : resultType i = .bool) (p : Bool) :
    readResponse i (.of w (b2v w.bits p)) = .truth p := by
  rw [readResponse_of, h]
  exact congrArg Reading.truth (b2v_getLsbD_zero (width_bits_pos w) p)

/-- An add form's response is read unsigned. -/
theorem readResponse_tickCount (h : resultType i = .tickCount) (v : BitVec w.bits) :
    readResponse i (.of w v) = .count v.toNat := by
  rw [readResponse_of, h]; rfl

/-- A sub form's response is read in two's complement. -/
theorem readResponse_tickDelta (h : resultType i = .tickDelta) (v : BitVec w.bits) :
    readResponse i (.of w v) = .delta v.toInt := by
  rw [readResponse_of, h]
  exact congrArg Reading.delta (signed_eq (width_bits_pos w) v)

end Readings

/-- Settles O12: each operation's answer, read by its result type. -/
theorem responsesReadByTheirType : Obligations.ResponsesReadByTheirType := by
  unfold Obligations.ResponsesReadByTheirType
  intro w t1 t2 ovf mx
  have hW := width_bits_pos w
  refine ⟨⟨past t1 t2, _, (answers_past ..).mpr rfl, b2v_toNat hW _, ?past⟩,
    ⟨pastRaw t1 t2 ovf, _, (answers_pastRaw ..).mpr rfl, b2v_toNat hW _, ?pastRaw⟩,
    ⟨_, (answers_add ..).mpr rfl, ?add⟩, ⟨_, (answers_addRaw ..).mpr rfl, ?addRaw⟩,
    ⟨_, (answers_sub ..).mpr rfl, ?sub⟩, ⟨_, (answers_subRaw ..).mpr rfl, ?subRaw⟩⟩
  case past => exact readResponse_b2v (resultType_past ..) _
  case pastRaw => exact readResponse_b2v (resultType_pastRaw ..) _
  case add => exact readResponse_tickCount (resultType_add ..) _
  case addRaw => exact readResponse_tickCount (resultType_addRaw ..) _
  case sub => exact readResponse_tickDelta (resultType_sub ..) _
  case subRaw => exact readResponse_tickDelta (resultType_subRaw ..) _

end Sys2Proof.Machine
end

section
/-! PROOFS. The comparator's two operations (40_comparator.md R70, R71). -/

namespace Sys2Proof.Machine

section Distances

variable {W : Nat} {t1 t2 : TickCount W} (ovf : TickCount W)

/-- R70's two branches as they appear on `res`, in exact unsigned arithmetic. -/
theorem b2v_pastRaw (t1 t2 : TickCount W) :
    b2v W (pastRaw t1 t2 ovf) =
      if t1.toNat ≤ t2.toNat then (if t2.toNat - t1.toNat < ovf.toNat then 1#W else 0#W)
      else (if t1.toNat - t2.toNat > ovf.toNat then 1#W else 0#W) := by
  by_cases h : t1.toNat ≤ t2.toNat
  · rw [if_pos h, ← b2v_decide]
    exact congrArg (b2v W) (if_pos h)
  · rw [if_neg h, ← b2v_decide]
    exact congrArg (b2v W) (if_neg h)

/-- The first branch compares the `W`-bit forward distance with the threshold. -/
theorem pastRaw_of_le (h : t1 ≤ t2) : pastRaw t1 t2 ovf = decide (t2 - t1 < ovf) := by
  rw [Bool.eq_iff_iff, pastRaw_eq_true_iff, decide_eq_true_iff, BitVec.lt_def, BitVec.toNat_sub_of_le h]
  rw [BitVec.le_def] at h
  omega

/-- The second branch compares the threshold with the `W`-bit backward distance. -/
theorem pastRaw_of_lt (h : t2 < t1) : pastRaw t1 t2 ovf = decide (ovf < t1 - t2) := by
  rw [Bool.eq_iff_iff, pastRaw_eq_true_iff, decide_eq_true_iff, BitVec.lt_def,
    BitVec.toNat_sub_of_le (BitVec.le_of_lt h)]
  rw [BitVec.lt_def] at h
  omega

end Distances

section Answers

variable {w : Width} {t1 t2 ovf : TickCount w.bits}

/-- The answer of `past_raw`, by R70's two branches. -/
theorem answers_pastRaw_branches (t1 t2 ovf : TickCount w.bits) :
    Answers w (.pastRaw w t1 t2 ovf)
      (if t1.toNat ≤ t2.toNat then (if t2.toNat - t1.toNat < ovf.toNat then 1#w.bits else 0#w.bits)
       else (if t1.toNat - t2.toNat > ovf.toNat then 1#w.bits else 0#w.bits)) :=
  (answers_pastRaw ..).mpr (b2v_pastRaw ovf t1 t2).symm

/-- Equal operands take the first branch, at distance 0. -/
theorem answers_pastRaw_self (t ovf : TickCount w.bits) :
    Answers w (.pastRaw w t t ovf) (if 0 < ovf.toNat then 1#w.bits else 0#w.bits) := by
  simpa only [le_refl, if_true, Nat.sub_self] using answers_pastRaw_branches t t ovf

/-- `past` answers what `past_raw` answers at the half-range threshold (R71). -/
theorem answers_past_iff_pastRaw {v : BitVec w.bits} :
    Answers w (.past w t1 t2) v ↔ Answers w (.pastRaw w t1 t2 (maxValueOverflow w.bits)) v :=
  (answers_past ..).trans (answers_pastRaw ..).symm

/-- The first inequality is strict: a forward distance of exactly the threshold is not in the past. -/
theorem answers_pastRaw_zero_of_forward_eq (h : t1 ≤ t2) (hd : t2 - t1 = ovf) :
    Answers w (.pastRaw w t1 t2 ovf) 0#w.bits := by
  rw [answers_pastRaw, pastRaw_of_le ovf h, hd, b2v_decide, if_neg (BitVec.lt_irrefl ovf)]

/-- The second inequality is strict: nor is a backward distance of exactly the threshold. -/
theorem answers_pastRaw_zero_of_backward_eq (h : t2 < t1) (hd : t1 - t2 = ovf) :
    Answers w (.pastRaw w t1 t2 ovf) 0#w.bits := by
  rw [answers_pastRaw, pastRaw_of_lt ovf h, hd, b2v_decide, if_neg (BitVec.lt_irrefl ovf)]

/-- A backward distance above the threshold means that the counter has wrapped in between. -/
theorem answers_pastRaw_one_of_lt_backward (h : t2 < t1) (hd : ovf < t1 - t2) :
    Answers w (.pastRaw w t1 t2 ovf) 1#w.bits := by
  rw [answers_pastRaw, pastRaw_of_lt ovf h, b2v_decide, if_pos hd]

end Answers

/-- The half-range threshold is positive at both widths, so equal operands are in the past. -/
theorem maxValueOverflow_toNat_pos (w : Width) : 0 < (maxValueOverflow w.bits).toNat := by cases w <;> decide

/-- The half-range threshold is not the largest count: its successor does not wrap. -/
theorem maxValueOverflow_lt_add_one (w : Width) :
    maxValueOverflow w.bits < maxValueOverflow w.bits + 1#w.bits := by cases w <;> decide

/-- Settles O24: the table's row, the two branches of R70, and their values at equal operands and in the example. -/
theorem pastRawFollowsItsAlgorithm : Obligations.PastRawFollowsItsAlgorithm := by
  unfold Obligations.PastRawFollowsItsAlgorithm
  refine ⟨fun w t1 t2 ovf maxv => ⟨?code, decode_of_pastRaw w _, answers_pastRaw_branches t1 t2 ovf,
    answers_pastRaw_self t1 ovf⟩, ?wrapped⟩
  case code => rw [Request.of_opsel]; cases w <;> rfl
  case wrapped => exact (answers_pastRaw ..).mpr (by decide)

/-- Settles O25: `past` is `past_raw` at the half-range threshold, so each clause is one about `past_raw` there. -/
theorem pastUsesTheHalfRangeThreshold : Obligations.PastUsesTheHalfRangeThreshold := by
  unfold Obligations.PastUsesTheHalfRangeThreshold
  refine ⟨fun w t1 t2 ovf maxv => ⟨?code, decode_of_past w _, ?branches,
    ⟨_, (answers_past ..).mpr rfl, answers_past_iff_pastRaw.mp ((answers_past ..).mpr rfl)⟩, ?equal,
    fun h hd => answers_past_iff_pastRaw.mpr (answers_pastRaw_zero_of_forward_eq h hd),
    fun h hd => answers_past_iff_pastRaw.mpr (answers_pastRaw_zero_of_backward_eq h hd),
    fun h hd => answers_past_iff_pastRaw.mpr (answers_pastRaw_one_of_lt_backward h ?above)⟩,
    (answers_past .w32 ..).mpr ?later, (answers_past .w32 ..).mpr ?earlier,
    (answers_past .w32 ..).mpr ?wrapped, (answers_past .w32 ..).mpr ?unwrapped⟩
  case code => rw [Request.of_opsel]; cases w <;> rfl
  case branches =>
    rw [answers_past_iff_pastRaw, ← maxValueOverflow_toNat_eq_pow (width_bits_pos w)]
    exact answers_pastRaw_branches t1 t2 _
  case equal =>
    rw [answers_past_iff_pastRaw]
    simpa only [maxValueOverflow_toNat_pos w, if_true] using answers_pastRaw_self t1 (maxValueOverflow w.bits)
  case above => rw [hd]; exact maxValueOverflow_lt_add_one w
  case later | earlier | wrapped | unwrapped => decide

end Sys2Proof.Machine
end

section
/-! PROOFS. The native sum and the normalisation loop (41_adder.md R90, R91, R92). -/

namespace Sys2Proof.Machine

variable {W : Nat}

section NativeSum

variable (t1 k : BitVec W)

/-- The native sum is the pattern of the sum with `ticks` read unsigned. -/
theorem add_eq_ofNat : t1 + k = BitVec.ofNat W (t1.toNat + k.toNat) := by
  rw [BitVec.ofNat_add, BitVec.ofNat_toNat, BitVec.ofNat_toNat, BitVec.setWidth_eq, BitVec.setWidth_eq]

/-- The native sum is the pattern of the sum with `ticks` read signed. -/
theorem add_eq_ofInt : t1 + k = BitVec.ofInt W ((t1.toNat : Int) + k.toInt) := by
  rw [BitVec.ofInt_add, BitVec.ofInt_toInt, BitVec.ofInt_natCast, BitVec.ofNat_toNat, BitVec.setWidth_eq]

/-- The native sum as a number, with `ticks` read signed. -/
theorem add_toNat_eq_emod : ((t1 + k).toNat : Int) = ((t1.toNat : Int) + k.toInt) % 2 ^ W := by
  have hpow : ((2 ^ W : Nat) : Int) ≠ 0 := by positivity
  rw [add_eq_ofInt, BitVec.toNat_ofInt, Int.toNat_of_nonneg (Int.emod_nonneg _ hpow)]
  push_cast
  rfl

end NativeSum

section Loop

variable {mx : TickCount W}

/-- A round that is taken is exact: neither `max_value + 1` nor the difference wraps. -/
theorem normalizeRound_toNat {r : BitVec W} (h : mx < r) :
    (r - (mx + 1#W)).toNat = r.toNat - (mx.toNat + 1) := by
  have hlt : mx.toNat < r.toNat := h
  have hsucc : (mx + 1#W).toNat = mx.toNat + 1 := by
    rw [BitVec.toNat_add, BitVec.toNat_ofNat, Nat.add_mod_mod, Nat.mod_eq_of_lt (Nat.lt_of_le_of_lt hlt r.isLt)]
  rw [BitVec.toNat_sub_of_le (by rw [BitVec.le_def, hsucc]; exact hlt), hsucc]

/-- Inside the modulus there is nothing to normalise. -/
theorem normalize_of_le {r : BitVec W} (h : r ≤ mx) : normalize r mx = r := by
  apply BitVec.eq_of_toNat_eq
  rw [normalize_toNat, Nat.mod_eq_of_lt (Nat.lt_succ_of_le h)]

/-- A round that is taken leaves the residue as it is. -/
theorem normalize_round {r : BitVec W} (h : mx < r) : normalize (r - (mx + 1#W)) mx = normalize r mx := by
  apply BitVec.eq_of_toNat_eq
  rw [normalize_toNat, normalize_toNat, normalizeRound_toNat h, ← Nat.mod_eq_sub_mod h]

/-- The loop of R90, started from `r`, stops at R92's closed form after `r / (max_value + 1)` rounds: by recursion on
the number `r`, which each round decreases. -/
theorem normalizeLoop_normalize (mx r : TickCount W) :
    NormalizeLoop mx r (r.toNat / (mx.toNat + 1)) (normalize r mx) := by
  by_cases h : r ≤ mx
  · rw [Nat.div_eq_of_lt (Nat.lt_succ_of_le h), normalize_of_le h]
    exact .stop r h
  · have hlt : mx < r := BitVec.not_le.mp h
    have hround := normalizeRound_toNat hlt
    have hrest := normalizeLoop_normalize mx (r - (mx + 1#W))
    rw [normalize_round hlt, hround] at hrest
    rw [Nat.div_eq_sub_div (Nat.succ_pos _) hlt]
    exact .round r _ _ hlt hrest
termination_by r.toNat
decreasing_by
  rw [hround]
  exact Nat.sub_lt (Nat.zero_lt_of_lt hlt) (Nat.succ_pos _)

/-- Under the full modulus no round is taken. -/
theorem toNat_div_maxValue_add_one (r : TickCount W) : r.toNat / ((maxValue W).toNat + 1) = 0 :=
  Nat.div_eq_of_lt (Nat.lt_succ_of_le (le_maxValue r))

/-- Modulus 1 leaves only 0. -/
theorem normalize_zero (r : TickCount W) : normalize r 0#W = 0#W := by
  apply BitVec.eq_of_toNat_eq
  rw [normalize_toNat, BitVec.toNat_zero, Nat.mod_one]

end Loop

/-- Settles O31: the response is the closed form at the native sum, which is where the loop stops. -/
theorem addRawRunsTheNormalisationLoop : Obligations.AddRawRunsTheNormalisationLoop := by
  unfold Obligations.AddRawRunsTheNormalisationLoop
  refine ⟨fun w t1 k mx ovf => ⟨?code, decode_of_addRaw w _, ?loop⟩, ?exampleLoop, ?exampleAnswer⟩
  case code => rw [Request.of_opsel]; cases w <;> rfl
  case loop =>
    rw [← add_eq_ofNat]
    refine ⟨_, _, normalizeLoop_normalize mx (t1 + k), add_eq_ofInt t1 k, (answers_addRaw ..).mpr rfl,
      normalize_le _ mx, ?fullModulus, ?modulusOne⟩
    case fullModulus => rintro rfl; exact toNat_div_maxValue_add_one _
    case modulusOne => rintro rfl; exact normalize_zero _
  case exampleLoop => exact .round _ _ _ (by decide) (.stop _ (by decide))
  case exampleAnswer => exact (answers_addRaw .w32 ..).mpr (by decide)

/-- Settles O32: the response is the native sum, whose value follows from either reading of `ticks`. -/
theorem addIsTheNativeSum : Obligations.AddIsTheNativeSum := by
  unfold Obligations.AddIsTheNativeSum
  refine ⟨fun w t1 k ovf maxv => ⟨?code, decode_of_add w _,
    ⟨t1 + k, (answers_add ..).mpr rfl, BitVec.toNat_add t1 k, add_toNat_eq_emod t1 k⟩, ?addZero⟩,
    (answers_add .w32 ..).mpr ?wrapped, (answers_add .w32 ..).mpr ?negative⟩
  case code => rw [Request.of_opsel]; cases w <;> rfl
  case addZero => exact (answers_add ..).mpr (BitVec.add_zero t1).symm
  case wrapped | negative => decide

end Sys2Proof.Machine
end

section
/-! PROOFS. The subtractor's two operations (42_subtractor.md R110, R111). -/

namespace Sys2Proof.Machine

section Representative

variable {W : Nat}

/-- The pattern of an integer, read unsigned, is its residue (00_scope.md R14). -/
theorem ofInt_toNat_eq_emod (y : Int) : ((BitVec.ofInt W y).toNat : Int) = y % 2 ^ W := by
  have hpow : ((2 ^ W : Nat) : Int) ≠ 0 := by positivity
  rw [BitVec.toNat_ofInt, Int.toNat_of_nonneg (Int.emod_nonneg _ hpow)]
  push_cast
  rfl

/-- The pattern of an integer, read signed, is congruent to it. -/
theorem pow_dvd_ofInt_toInt_sub (y : Int) : (2 ^ W : Int) ∣ (BitVec.ofInt W y).toInt - y := by
  rw [BitVec.toInt_ofInt]
  exact_mod_cast Int.dvd_bmod_sub_self (x := y) (m := 2 ^ W)

/-- The pattern of an integer, read signed, is the only integer of the signed range congruent to it. -/
theorem eq_ofInt_toInt_iff (hW : 0 < W) (x y : Int) :
    (-(2 ^ (W - 1)) ≤ x ∧ x ≤ 2 ^ (W - 1) - 1 ∧ (2 ^ W : Int) ∣ x - y) ↔ x = (BitVec.ofInt W y).toInt := by
  constructor
  · rintro ⟨hlow, hhigh, hdvd⟩
    rw [← ofInt_eq_of_dvd_sub hdvd, BitVec.toInt_ofInt_eq_self hW hlow (Int.lt_of_le_sub_one hhigh)]
  · rintro rfl
    exact ⟨BitVec.le_toInt _, Int.le_sub_one_of_lt BitVec.toInt_lt, pow_dvd_ofInt_toInt_sub y⟩

/-- Operands half the circle apart, in either order, have the most negative difference. -/
theorem sub_toInt_of_half_circle (hW : 0 < W) {t1 t2 : BitVec W}
    (h : t1.toNat = t2.toNat + 2 ^ (W - 1) ∨ t2.toNat = t1.toNat + 2 ^ (W - 1)) :
    (t1 - t2).toInt = -(2 ^ (W - 1)) := by
  have hhalf : (0 : Int) < 2 ^ (W - 1) := by positivity
  have hfull : (2 : Int) ^ W = 2 * 2 ^ (W - 1) := (mul_pow_sub_one hW.ne' 2).symm
  have hdvd : (2 ^ W : Int) ∣ -(2 ^ (W - 1)) - ((t1.toNat : Int) - t2.toNat) := by
    rw [hfull]
    obtain h1 | h2 := h
    · exact ⟨-1, by rw [h1]; push_cast; ring⟩
    · exact ⟨0, by rw [h2]; push_cast; ring⟩
  rw [sub_eq_ofInt]
  exact ((eq_ofInt_toInt_iff hW _ _).mp ⟨le_rfl, by omega, hdvd⟩).symm

end Representative

section Answers

variable {w : Width}

/-- The answer of `sub_raw`, by R110's four arms. -/
theorem answers_subRaw_arms (t1 t2 ovf mx : TickCount w.bits) :
    Answers w (.subRaw w t1 t2 ovf mx)
      (BitVec.ofInt w.bits
        (if t1.toNat ≥ t2.toNat then
          (if t1.toNat - t2.toNat > ovf.toNat then (t1.toNat : Int) - t2.toNat - mx.toNat - 1
           else (t1.toNat : Int) - t2.toNat)
         else
          (if t2.toNat - t1.toNat > ovf.toNat then (mx.toNat : Int) + 1 - ((t2.toNat : Int) - t1.toNat)
           else -((t2.toNat : Int) - t1.toNat)))) := by
  rw [answers_subRaw, subRaw, pat_eq, subRawValue_eq]
  congr 1
  split_ifs <;> ring

/-- Equal operands take the second arm, at distance 0, whatever the parameters. -/
theorem answers_subRaw_self (t ovf mx : TickCount w.bits) : Answers w (.subRaw w t t ovf mx) 0#w.bits := by
  simpa using answers_subRaw_arms t t ovf mx

/-- `sub` answers what `sub_raw` answers under the full modulus, at any threshold (R111). -/
theorem answers_sub_iff_subRaw {t1 t2 v : BitVec w.bits} (ovf : TickCount w.bits) :
    Answers w (.sub w t1 t2) v ↔ Answers w (.subRaw w t1 t2 ovf (maxValue w.bits)) v := by
  rw [answers_sub, answers_subRaw, subRaw_maxValue]

end Answers

/-- Settles O38: the table's row, the four arms of R110, and their values at equal operands and in the example. -/
theorem subRawFollowsItsAlgorithm : Obligations.SubRawFollowsItsAlgorithm := by
  unfold Obligations.SubRawFollowsItsAlgorithm
  refine ⟨fun w t1 t2 ovf mx => ⟨?code, decode_of_subRaw w _, answers_subRaw_arms t1 t2 ovf mx,
    answers_subRaw_self t1 ovf mx⟩, ?wrapped⟩
  case code => rw [Request.of_opsel]; cases w <;> rfl
  case wrapped => exact (answers_subRaw .w32 ..).mpr (by decide)

/-- Settles O39: the response is the `W`-bit difference, the pattern of the difference of the tick counts; its two
readings follow from what the pattern of an integer reads as. -/
theorem subIsTwosComplementSubtraction : Obligations.SubIsTwosComplementSubtraction := by
  unfold Obligations.SubIsTwosComplementSubtraction
  refine ⟨fun w t1 t2 ovf maxv => ⟨?code, decode_of_sub w _, ⟨t1 - t2, (answers_sub ..).mpr rfl, ?residue,
    (answers_sub_iff_subRaw _).mp ((answers_sub ..).mpr rfl), ?representative,
    sub_toInt_of_half_circle (width_bits_pos w)⟩, ?equal⟩,
    (answers_sub .w32 ..).mpr ?forward, (answers_sub .w32 ..).mpr ?backward,
    (answers_sub .w32 ..).mpr ?unwrapped, (answers_sub .w32 ..).mpr ?wrapped⟩
  case code => rw [Request.of_opsel]; cases w <;> rfl
  case residue => rw [sub_eq_ofInt, ofInt_toNat_eq_emod]
  case representative => intro x; rw [sub_eq_ofInt]; exact eq_ofInt_toInt_iff (width_bits_pos w) x _
  case equal => exact (answers_sub ..).mpr (BitVec.sub_self t1).symm
  case forward | backward | unwrapped | wrapped => decide

end Sys2Proof.Machine
end

section
/-! PROOFS. Every request with a defined code is answered, and nothing faults (60_exceptions.md R160). -/

namespace Sys2Proof.Machine

/-- A step that responds does not fault, and neither does one that refuses. -/
theorem step_ne_fault (s : State) (f : Fault) : step s ≠ .fault f := by
  obtain ⟨_, v, _, _, hstep⟩ | ⟨o, _, hstep⟩ := step_cases s
  · simp [hstep, respond_eq]
  · simp [hstep]

/-- From every state every operation completes, and only the response changes. -/
theorem exec_completes (i : Instr) (s : State) : ∃ v, exec i s = .next { s with response := some v } := by
  obtain ⟨v, hv⟩ := exec_eq_respond i
  exact ⟨v, by rw [hv, respond_eq]⟩

/-- Settles O14: a code that is not reserved makes a well-formed request, which is answered; a step only responds or
refuses; every operation responds; and the type of causes has no constructor. -/
theorem everyDefinedRequestIsAnswered : Obligations.EveryDefinedRequestIsAnswered := by
  unfold Obligations.EveryDefinedRequestIsAnswered
  refine ⟨fun s hdefined => ?answered, step_ne_fault, exec_completes, ⟨fun cause => ?noCause⟩⟩
  case answered => exact step_of_wellFormed (s.request.wellFormed_iff_opsel.mpr hdefined)
  case noCause => cases cause

end Sys2Proof.Machine
end

section
/-! PROOFS. The encoder row by row at both widths, and that it and the decoder undo each other (30_encoding.md R50 to
R56, 95_test_vectors.md section 4). -/

namespace Sys2Proof

section EncodeRows

variable (x y : BitVec 32) (w : Width) (t1 t2 ovf k mx : BitVec w.bits)

theorem encodeWith_past : encodeWith x y (.past w t1 t2) = .of w 0b000#3 ⟨t1, t2, x.setWidth _, y.setWidth _⟩ := by
  cases w <;> simp [encodeWith, Instr.past, Request.of]
theorem encodeWith_pastRaw :
    encodeWith x y (.pastRaw w t1 t2 ovf) = .of w 0b001#3 ⟨t1, t2, ovf, y.setWidth _⟩ := by
  cases w <;> simp [encodeWith, Instr.pastRaw, Request.of]
theorem encodeWith_add : encodeWith x y (.add w t1 k) = .of w 0b010#3 ⟨t1, k, x.setWidth _, y.setWidth _⟩ := by
  cases w <;> simp [encodeWith, Instr.add, Request.of]
theorem encodeWith_addRaw : encodeWith x y (.addRaw w t1 k mx) = .of w 0b011#3 ⟨t1, k, x.setWidth _, mx⟩ := by
  cases w <;> simp [encodeWith, Instr.addRaw, Request.of]
theorem encodeWith_sub : encodeWith x y (.sub w t1 t2) = .of w 0b100#3 ⟨t1, t2, x.setWidth _, y.setWidth _⟩ := by
  cases w <;> simp [encodeWith, Instr.sub, Request.of]
theorem encodeWith_subRaw : encodeWith x y (.subRaw w t1 t2 ovf mx) = .of w 0b101#3 ⟨t1, t2, ovf, mx⟩ := by
  cases w <;> rfl

theorem code_past : (Instr.past w t1 t2).code = opselOf w 0b000#3 := by cases w <;> rfl
theorem code_pastRaw : (Instr.pastRaw w t1 t2 ovf).code = opselOf w 0b001#3 := by cases w <;> rfl
theorem code_add : (Instr.add w t1 k).code = opselOf w 0b010#3 := by cases w <;> rfl
theorem code_addRaw : (Instr.addRaw w t1 k mx).code = opselOf w 0b011#3 := by cases w <;> rfl
theorem code_sub : (Instr.sub w t1 t2).code = opselOf w 0b100#3 := by cases w <;> rfl
theorem code_subRaw : (Instr.subRaw w t1 t2 ovf mx).code = opselOf w 0b101#3 := by cases w <;> rfl

end EncodeRows

section RoundTrip

variable (x y : BitVec 32) (i : Instr)

/-- The decoder takes every operand back from the field the encoder puts it in, and reads no other field. -/
theorem decode_encodeWith : decode (encodeWith x y i) = .ok i := by
  induction i using Machine.Instr.cases_by_width with
  | hp w t1 t2 => rw [encodeWith_past, decode_of_past]
  | hpr w t1 t2 ovf => rw [encodeWith_pastRaw, decode_of_pastRaw]
  | ha w t1 k => rw [encodeWith_add, decode_of_add]
  | har w t1 k mx => rw [encodeWith_addRaw, decode_of_addRaw]
  | hs w t1 t2 => rw [encodeWith_sub, decode_of_sub]
  | hsr w t1 t2 ovf mx => rw [encodeWith_subRaw, decode_of_subRaw]

/-- The encoder puts the operation's code on `opsel`, whatever it puts in the ignored fields. -/
theorem encodeWith_opsel : (encodeWith x y i).opsel = i.code := by
  induction i using Machine.Instr.cases_by_width with
  | hp w t1 t2 => rw [encodeWith_past, Request.of_opsel, code_past]
  | hpr w t1 t2 ovf => rw [encodeWith_pastRaw, Request.of_opsel, code_pastRaw]
  | ha w t1 k => rw [encodeWith_add, Request.of_opsel, code_add]
  | har w t1 k mx => rw [encodeWith_addRaw, Request.of_opsel, code_addRaw]
  | hs w t1 t2 => rw [encodeWith_sub, Request.of_opsel, code_sub]
  | hsr w t1 t2 ovf mx => rw [encodeWith_subRaw, Request.of_opsel, code_subRaw]

/-- The fields that are cleared are exactly those in which the encoder leaves a choice. -/
theorem clearIgnored_encodeWith : (encodeWith x y i).clearIgnored = encode i := by cases i <;> rfl

/-- A field survives the passage through the 32 bits the encoder takes. -/
theorem setWidth_setWidth_bits (w : Width) (v : BitVec w.bits) : (v.setWidth 32).setWidth w.bits = v := by
  rw [BitVec.setWidth_setWidth_of_le _ (by cases w <;> decide), BitVec.setWidth_eq]

variable {i} in
/-- The encoder reaches every request that decodes: one whose ignored fields hold that request's own values. -/
theorem exists_eq_encodeWith_of_decode {r : Request} (h : decode r = .ok i) : ∃ x y, r = encodeWith x y i := by
  obtain ⟨w, sel, f, rfl⟩ := r.exists_eq_of
  refine ⟨f.ovf.setWidth 32, f.maxv.setWidth 32, ?_⟩
  rcases sel_cases sel with rfl | rfl | rfl | rfl | rfl | rfl | hreserved
  · obtain rfl := Except.ok.inj ((decode_of_past w f).symm.trans h)
    rw [encodeWith_past, setWidth_setWidth_bits, setWidth_setWidth_bits]
  · obtain rfl := Except.ok.inj ((decode_of_pastRaw w f).symm.trans h)
    rw [encodeWith_pastRaw, setWidth_setWidth_bits]
  · obtain rfl := Except.ok.inj ((decode_of_add w f).symm.trans h)
    rw [encodeWith_add, setWidth_setWidth_bits, setWidth_setWidth_bits]
  · obtain rfl := Except.ok.inj ((decode_of_addRaw w f).symm.trans h)
    rw [encodeWith_addRaw, setWidth_setWidth_bits]
  · obtain rfl := Except.ok.inj ((decode_of_sub w f).symm.trans h)
    rw [encodeWith_sub, setWidth_setWidth_bits, setWidth_setWidth_bits]
  · obtain rfl := Except.ok.inj ((decode_of_subRaw w f).symm.trans h)
    rw [encodeWith_subRaw]
  · rw [decode_of_reserved w f hreserved] at h
    cases h

end RoundTrip

/-- An operation's code determines its name: that of the operation any request with this code decodes to. -/
theorem decode_ofOpsel_code_mnemonic (i : Instr) :
    (decode (.ofOpsel i.code)).toOption.map Machine.mnemonic = some (Machine.mnemonic i) := by
  cases i <;> dsimp only [Instr.code] <;> rfl

/-- An operation's code determines its width: the top bit names it. -/
theorem opselWidth_code (i : Instr) : opselWidth i.code = i.width := by
  cases i <;> dsimp only [Instr.code] <;> rfl

namespace Machine

/-- Settles O6: the decoder reads back what the encoder wrote, row by row of the table. -/
theorem decodeUndoesEncode : Obligations.DecodeUndoesEncode := by
  unfold Obligations.DecodeUndoesEncode
  exact fun i x y => ⟨decode_encodeWith x y i, encodeWith_opsel x y i⟩

/-- Settles O7: a request that decodes is an encoded operation; clearing its ignored fields encodes it with zeros. -/
theorem encodeUndoesDecode : Obligations.EncodeUndoesDecode := by
  unfold Obligations.EncodeUndoesDecode
  intro r i h
  obtain ⟨x, y, rfl⟩ := exists_eq_encodeWith_of_decode h
  exact ⟨(clearIgnored_encodeWith x y i).symm, (encodeWith_opsel x y i).symm⟩

/-- Settles O8: name and width are functions of the code. -/
theorem noTwoOperationsShareACode : Obligations.NoTwoOperationsShareACode := by
  unfold Obligations.NoTwoOperationsShareACode
  intro i j h
  constructor
  · rw [← Option.some.injEq, ← decode_ofOpsel_code_mnemonic i, h, decode_ofOpsel_code_mnemonic j]
  · rw [← opselWidth_code i, h, opselWidth_code j]

/-- Settles O5: the eight table words, decoded. -/
theorem sampleCodesDecode : Obligations.SampleCodesDecode := by
  unfold Obligations.SampleCodesDecode
  exact ⟨rfl, rfl, rfl, rfl, rfl, rfl, rfl, rfl⟩

end Machine

end Sys2Proof
end

section
/-! PROOFS. What a step reads, what it changes, and what is true of every response (10_state.md R20 to R31,
20_memory.md R43, 30_encoding.md R60). -/

namespace Sys2Proof.Machine

section Steps

variable {i : Instr} {v v' : Response} {s t : State}

/-- An operation that answers has responded, with the same response from every state. -/
theorem exec_next (h : exec i s = .next t) :
    ∃ v, (∀ s', exec i s' = respond v s') ∧ t = { s with response := some v } := by
  obtain ⟨v, hv⟩ := exec_eq_respond i
  exact ⟨v, hv, (respond_next_iff v s t).mp (hv s ▸ h)⟩

/-- A step that answers has decoded an operation, and that operation has responded. -/
theorem step_next (h : step s = .next t) :
    ∃ i v, decode s.request = .ok i ∧ (∀ s', exec i s' = respond v s') ∧ t = { s with response := some v } := by
  obtain ⟨i, v, hdec, hv, hstep⟩ | ⟨o, _, hstep⟩ := step_cases s
  · exact ⟨i, v, hdec, hv, (respond_next_iff v s t).mp (hstep ▸ h)⟩
  · rw [hstep] at h
    cases h

/-- An operation has one response. -/
theorem response_unique (h : ∀ s, exec i s = respond v s) (h' : ∀ s, exec i s = respond v' s) : v = v' := by
  have heq := (h State.reset).symm.trans (h' State.reset)
  simpa [respond_eq] using heq

/-- An operation's response is of its own width. -/
theorem width_of_exec (h : ∀ s, exec i s = respond v s) : v.width = i.width := by
  obtain ⟨x, hx⟩ : ∃ x, ∀ s, exec i s = respond (.of i.width x) s := by cases i <;> exact ⟨_, fun _ => rfl⟩
  rw [response_unique h hx, Response.of_width]

/-- The encoder addresses the operation's own width. -/
theorem encodeWith_width (x y : BitVec 32) (i : Instr) : (encodeWith x y i).width = i.width := by cases i <;> rfl

/-- The decoder yields an operation of the width the request is presented to. -/
theorem width_of_decode {r : Request} (h : decode r = .ok i) : i.width = r.width := by
  obtain ⟨x, y, rfl⟩ := exists_eq_encodeWith_of_decode h
  exact (encodeWith_width x y i).symm

/-- Two states with one request take one step, whatever response stands in either. -/
theorem step_eq_of_request_eq (h : s.request = t.request) : step s = step t := by
  obtain ⟨i, v, hdec, hv, hstep⟩ | ⟨o, hdec, hstep⟩ := step_cases s
  · rw [hstep, step_of_decode (h ▸ hdec), hv, respond_eq, respond_eq, h]
  · rw [hstep, step_of_reject (h ▸ hdec), refusalOf]

end Steps

section Fits

variable (w : Width) (t1 t2 ovf k mx x : BitVec w.bits)

theorem fits_past : Fits (.past w t1 t2) (.of w x) ↔ x = 0#w.bits ∨ x = 1#w.bits := by
  cases w <;> simp [Fits, Instr.past, Response.of]
theorem fits_pastRaw : Fits (.pastRaw w t1 t2 ovf) (.of w x) ↔ x = 0#w.bits ∨ x = 1#w.bits := by
  cases w <;> simp [Fits, Instr.pastRaw, Response.of]
theorem fits_add : Fits (.add w t1 k) (.of w x) ↔ x - t1 = k := by
  cases w <;> simp [Fits, Instr.add, Response.of]
theorem fits_addRaw : Fits (.addRaw w t1 k mx) (.of w x) ↔ x ≤ mx := by
  cases w <;> simp [Fits, Instr.addRaw, Response.of]
theorem fits_sub : Fits (.sub w t1 t2) (.of w x) ↔ t2 + x = t1 := by
  cases w <;> simp [Fits, Instr.sub, Response.of]
theorem fits_subRaw : Fits (.subRaw w t1 t2 ovf mx) (.of w x) ↔
    (mx = maxValue w.bits → t2 + x = t1) ∧ (t1 = t2 → x = 0#w.bits) := by
  cases w <;> simp [Fits, Instr.subRaw, Response.of]

/-- Equal operands have distance 0, whatever the parameters. -/
theorem subRaw_self {W : Nat} (t ovf mx : TickCount W) : subRaw t t ovf mx = 0#W := by
  simp [subRaw, subRawValue_eq]

/-- Every operation's response is within the bounds of that operation. -/
theorem fits_of_exec {i : Instr} {v : Response} (h : ∀ s, exec i s = respond v s) : Fits i v := by
  induction i using Instr.cases_by_width with
  | hp w t1 t2 =>
    rw [response_unique h (exec_past w t1 t2), fits_past]
    exact b2v_cases _
  | hpr w t1 t2 ovf =>
    rw [response_unique h (exec_pastRaw w t1 t2 ovf), fits_pastRaw]
    exact b2v_cases _
  | ha w t1 k =>
    rw [response_unique h (exec_add w t1 k), fits_add]
    exact add_sub_cancel_left t1 k
  | har w t1 k mx =>
    rw [response_unique h (exec_addRaw w t1 k mx), fits_addRaw]
    exact normalize_le _ mx
  | hs w t1 t2 =>
    rw [response_unique h (exec_sub w t1 t2), fits_sub]
    exact add_sub_cancel t2 t1
  | hsr w t1 t2 ovf mx =>
    rw [response_unique h (exec_subRaw w t1 t2 ovf mx), fits_subRaw]
    refine ⟨?fullModulus, ?equal⟩
    case fullModulus => rintro rfl; rw [subRaw_maxValue]; exact add_sub_cancel t2 t1
    case equal => rintro rfl; exact subRaw_self t1 ovf mx

end Fits

/-- Settles O19: a step keeps the request and delivers the response of the operation decoded from it, which fits; after
presenting no response stands there. -/
theorem stepKeepsTheBoundaryInvariant : Obligations.StepKeepsTheBoundaryInvariant := by
  unfold Obligations.StepKeepsTheBoundaryInvariant State.Inv
  refine ⟨fun s t _ hstep v hresp => ?step, fun r s _ v hresp => ?present⟩
  case step =>
    obtain ⟨i, v', hdec, hv', rfl⟩ := step_next hstep
    obtain rfl : v' = v := Option.some.inj hresp
    exact ⟨i, hdec, fits_of_exec hv'⟩
  case present =>
    rw [State.present_response] at hresp
    cases hresp

/-- Settles O20: no response stands there after reset. -/
theorem resetHoldsTheBoundaryInvariant : Obligations.ResetHoldsTheBoundaryInvariant := by
  unfold Obligations.ResetHoldsTheBoundaryInvariant State.Inv
  intro v hresp
  rw [State.reset_response] at hresp
  cases hresp

/-- Settles O13: the step at a request that decodes, at one that is rejected, and at a table word. -/
theorem stepRunsTheDecodedOperation : Obligations.StepRunsTheDecodedOperation := by
  unfold Obligations.StepRunsTheDecodedOperation
  refine ⟨fun s i h => step_of_decode h, fun s o h => step_of_reject h, fun s nbits w i h => step_of_decode ?_⟩
  rw [State.withFetchWord_request]
  cases hdec : decode (tableRequest nbits w) with
  | ok j => simpa [decodeTableWord, hdec, Except.toOption] using h
  | error e => simp [decodeTableWord, hdec, Except.toOption] at h

/-- Settles O15: an operation only responds, with a response of its own width. -/
theorem operationsChangeOnlyTheResponse : Obligations.OperationsChangeOnlyTheResponse := by
  unfold Obligations.OperationsChangeOnlyTheResponse
  intro i s t h
  obtain ⟨v, hv, rfl⟩ := exec_next h
  exact ⟨rfl, v, rfl, width_of_exec hv⟩

/-- Settles O16: the decoder reads the request only, and an operation's response does not depend on the state. -/
theorem stepDependsOnTheRequestAlone : Obligations.StepDependsOnTheRequestAlone := by
  unfold Obligations.StepDependsOnTheRequestAlone
  exact fun s s' h => step_eq_of_request_eq h

/-- Settles O17: decoding keeps the width, and so does the operation decoded. -/
theorem responseComesFromTheRequestedInstance : Obligations.ResponseComesFromTheRequestedInstance := by
  unfold Obligations.ResponseComesFromTheRequestedInstance
  intro s t h
  obtain ⟨i, v, hdec, hv, rfl⟩ := step_next h
  exact ⟨v, rfl, (width_of_exec hv).trans (width_of_decode hdec)⟩

/-- Settles O18: the second step sees the same request, and so takes the same step to the same state. -/
theorem evaluationIsIdempotent : Obligations.EvaluationIsIdempotent := by
  unfold Obligations.EvaluationIsIdempotent
  intro s t h
  obtain ⟨i, v, hdec, hv, rfl⟩ := step_next h
  have hagain (s' : State) (hreq : s.request = s'.request) : step s' = .next { s with response := some v } :=
    (step_eq_of_request_eq hreq).symm.trans h
  exact ⟨hagain _ rfl, hagain _ rfl⟩

/-- Settles O21: presenting overwrites both fields of the boundary, so nothing of the state before is left. -/
theorem firstEvaluationIsLikeEveryLaterOne : Obligations.FirstEvaluationIsLikeEveryLaterOne := by
  unfold Obligations.FirstEvaluationIsLikeEveryLaterOne
  exact ⟨State.reset_response, State.reset_request, fun r s => step_eq_of_request_eq rfl⟩

end Sys2Proof.Machine
end

section
/-! PROOFS. Sequences of evaluations on the caller's side (70_reset_and_hazards.md R183, 20_memory.md section 7). -/

namespace Sys2Proof.Machine

/-- An evaluation that ends has the one response its request gets at any state. -/
theorem evaluate_next {r : Request} {s t : State} (h : evaluate r s = .next t) :
    ∃ v, AnsweredBy r v ∧ t = { request := r, response := some v } := by
  obtain ⟨i, v, hdec, hv, rfl⟩ := step_next h
  exact ⟨v, answeredBy_of_decode hdec hv, rfl⟩

/-- A well-formed request is answered. -/
theorem exists_answeredBy {r : Request} (h : r.wellFormed = true) : ∃ v, AnsweredBy r v := by
  obtain ⟨i, hdec⟩ := (decode_ok_iff r).mpr h
  obtain ⟨v, hv⟩ := exec_eq_respond i
  exact ⟨v, answeredBy_of_decode hdec hv⟩

/-- A sequence ends with `vs` exactly when its first request is answered by the first of `vs` and the rest, from the
state this leaves, ends with the rest. -/
theorem evaluateAll_cons_next_iff (r : Request) (rs : List Request) (vs : List Response) (s : State) :
    evaluateAll (r :: rs) s = .next vs ↔
      ∃ v vs', AnsweredBy r v ∧ evaluateAll rs { request := r, response := some v } = .next vs' ∧ vs = v :: vs' := by
  constructor
  · intro h
    simp only [evaluateAll] at h
    cases hr : evaluate r s with
    | next t =>
      obtain ⟨v, hv, rfl⟩ := evaluate_next hr
      cases hrs : evaluateAll rs { request := r, response := some v } with
      | next vs' => exact ⟨v, vs', hv, hrs, by simpa [hr, hrs, eq_comm] using h⟩
      | fault f => cases f
      | refused e => simp [hr, hrs] at h
    | fault f => cases f
    | refused e => simp [hr] at h
  · rintro ⟨v, vs', hv, hrs, rfl⟩
    simp [evaluateAll, hv s, hrs]

/-- The responses of a sequence are those its requests get alone, at any states. -/
theorem evaluateAll_next_iff (rs : List Request) (vs : List Response) (s : State) :
    evaluateAll rs s = .next vs ↔ List.Forall₂ AnsweredBy rs vs := by
  induction rs generalizing vs s with
  | nil => simp [evaluateAll, eq_comm]
  | cons r rs ih => simp only [evaluateAll_cons_next_iff, List.forall₂_cons_left_iff, ih]

/-- Well-formed requests are answered one by one. -/
theorem exists_forall₂_answeredBy {rs : List Request} (h : ∀ r ∈ rs, r.wellFormed = true) :
    ∃ vs, List.Forall₂ AnsweredBy rs vs := by
  induction rs with
  | nil => exact ⟨[], .nil⟩
  | cons r rs ih =>
    obtain ⟨hr, hrs⟩ := List.forall_mem_cons.mp h
    obtain ⟨v, hv⟩ := exists_answeredBy hr
    obtain ⟨vs, hvs⟩ := ih hrs
    exact ⟨v :: vs, .cons hv hvs⟩

/-- Settles O22, by induction on the sequence. -/
theorem sequenceAnswersEachRequestAlone : Obligations.SequenceAnswersEachRequestAlone := by
  unfold Obligations.SequenceAnswersEachRequestAlone
  exact evaluateAll_next_iff

/-- Settles O23: what each request gets alone depends on no order, and well-formed requests each get something. -/
theorem sequenceCompletesAndCommutes : Obligations.SequenceCompletesAndCommutes := by
  unfold Obligations.SequenceCompletesAndCommutes
  simp only [evaluateAll_next_iff]
  refine ⟨fun rs _ hwf => ?completes, fun rs rs' vs _ _ hperm hvs => ?commutes⟩
  case completes =>
    obtain ⟨vs, hvs⟩ := exists_forall₂_answeredBy hwf
    exact ⟨vs, hvs, hvs.length_eq.symm⟩
  case commutes =>
    obtain ⟨vs', hvs', hperm'⟩ := List.perm_comp_forall₂ hperm.symm hvs
    exact ⟨vs', hvs', hperm'.symm⟩

end Sys2Proof.Machine
end

section
/-! PROOFS. The width parameter and the two's-complement primitives (00_scope.md R7, R12, R14). -/

namespace Sys2Proof.Machine

variable {W : Nat}

/-- Half the circle is half of it. -/
theorem two_pow_eq_two_mul_half (hW : 0 < W) : 2 ^ W = 2 * 2 ^ (W - 1) := (mul_pow_sub_one hW.ne' 2).symm

/-- The pattern of an integer reads as that integer exactly when it lies in the signed range. -/
theorem ofInt_toInt_eq_iff (hW : 0 < W) (x : Int) :
    (BitVec.ofInt W x).toInt = x ↔ -(2 ^ (W - 1)) ≤ x ∧ x ≤ 2 ^ (W - 1) - 1 := by
  rw [eq_comm, ← eq_ofInt_toInt_iff hW x x, sub_self]
  simp only [dvd_zero, and_true]

/-- Settles O2: each of the two numbers is the width of its constructor. -/
theorem onlyWidthsSixteenAndThirtyTwo : Obligations.OnlyWidthsSixteenAndThirtyTwo := by
  unfold Obligations.OnlyWidthsSixteenAndThirtyTwo
  refine fun n => ⟨?only, ?both⟩
  case only =>
    rintro ⟨w, rfl⟩
    cases w with
    | w16 => exact .inl rfl
    | w32 => exact .inr rfl
  case both =>
    rintro (rfl | rfl)
    · exact ⟨.w16, rfl⟩
    · exact ⟨.w32, rfl⟩

/-- Settles O3: the first two clauses are the two branches of `signed`; the others are about core Lean's reading. -/
theorem patternAndSignedReadingAgree : Obligations.PatternAndSignedReadingAgree := by
  unfold Obligations.PatternAndSignedReadingAgree
  intro w
  have hW := width_bits_pos w
  refine ⟨fun v => ⟨fun h => if_pos h, fun h => if_neg h.not_gt, ?inverse⟩, ?residue, ?range⟩
  case inverse => rw [signed_eq hW, pat_eq, BitVec.ofInt_toInt]
  case residue => exact ofInt_toNat_eq_emod
  case range =>
    intro x
    rw [signed_eq hW, pat_eq]
    exact ofInt_toInt_eq_iff hW x

end Sys2Proof.Machine
end

section
/-! PROOFS. The comparator at and around its threshold and on the circle (40_comparator.md R72 to R77,
44_properties.md R134). -/

namespace Sys2Proof.Machine

variable {W : Nat}

section Truth

variable (t1 t2 ovf : TickCount W)

/-- R70's two branches in sums, which need no truncated subtraction. -/
theorem pastRaw_iff : pastRaw t1 t2 ovf = true ↔
    (t1.toNat ≤ t2.toNat ∧ t2.toNat < t1.toNat + ovf.toNat) ∨ t2.toNat + ovf.toNat < t1.toNat := by
  rw [pastRaw_eq_true_iff]
  omega

/-- The same at the half-range threshold (R71). -/
theorem past_iff (hW : 0 < W) : past t1 t2 = true ↔
    (t1.toNat ≤ t2.toNat ∧ t2.toNat < t1.toNat + (2 ^ (W - 1) - 1)) ∨ t2.toNat + (2 ^ (W - 1) - 1) < t1.toNat := by
  rw [← maxValueOverflow_toNat_eq_pow hW]
  exact pastRaw_iff t1 t2 _

end Truth

section Answers

variable {w : Width} {t1 t2 ovf : TickCount w.bits}

theorem b2v_eq_one_iff (w : Width) (p : Bool) : b2v w.bits p = 1#w.bits ↔ p = true := by
  cases w <;> cases p <;> decide
theorem b2v_eq_zero_iff (w : Width) (p : Bool) : b2v w.bits p = 0#w.bits ↔ ¬ p = true := by
  cases w <;> cases p <;> decide

theorem answers_pastRaw_one_iff : Answers w (.pastRaw w t1 t2 ovf) 1#w.bits ↔ pastRaw t1 t2 ovf = true := by
  rw [answers_pastRaw, eq_comm, b2v_eq_one_iff]
theorem answers_pastRaw_zero_iff : Answers w (.pastRaw w t1 t2 ovf) 0#w.bits ↔ ¬ pastRaw t1 t2 ovf = true := by
  rw [answers_pastRaw, eq_comm, b2v_eq_zero_iff]
theorem answers_past_one_iff : Answers w (.past w t1 t2) 1#w.bits ↔ past t1 t2 = true :=
  answers_past_iff_pastRaw.trans answers_pastRaw_one_iff
theorem answers_past_zero_iff : Answers w (.past w t1 t2) 0#w.bits ↔ ¬ past t1 t2 = true :=
  answers_past_iff_pastRaw.trans answers_pastRaw_zero_iff

/-- The answer of `past_raw`, by any condition equivalent to R70's. -/
theorem answers_pastRaw_ite {P : Prop} [Decidable P] (h : pastRaw t1 t2 ovf = true ↔ P) :
    Answers w (.pastRaw w t1 t2 ovf) (if P then 1#w.bits else 0#w.bits) := by
  split
  next hP => exact answers_pastRaw_one_iff.mpr (h.mpr hP)
  next hP => exact answers_pastRaw_zero_iff.mpr (mt h.mp hP)

/-- The answer of `past_raw`, by a condition for each branch. -/
theorem answers_pastRaw_ite_ite {B P Q : Prop} [Decidable B] [Decidable P] [Decidable Q]
    (hP : B → (pastRaw t1 t2 ovf = true ↔ P)) (hQ : ¬ B → (pastRaw t1 t2 ovf = true ↔ Q)) :
    Answers w (.pastRaw w t1 t2 ovf)
      (if B then (if P then 1#w.bits else 0#w.bits) else (if Q then 1#w.bits else 0#w.bits)) := by
  by_cases hB : B
  · rw [if_pos hB]; exact answers_pastRaw_ite (hP hB)
  · rw [if_neg hB]; exact answers_pastRaw_ite (hQ hB)

end Answers

/-- There are at least two points in half the circle, at either width. -/
theorem two_le_half (w : Width) : 2 ≤ 2 ^ (w.bits - 1) := by cases w <;> decide

section ForwardDistance

variable {w : Width} {t1 t2 : TickCount w.bits} (ovf : TickCount w.bits)

/-- Without a wrap the forward distance is below the threshold (R72). -/
theorem pastRaw_iff_forward_of_le (h : t1 ≤ t2) : pastRaw t1 t2 ovf = true ↔ (t2 - t1).toNat < ovf.toNat := by
  rw [pastRaw_of_le ovf h, decide_eq_true_iff, BitVec.lt_def]

/-- Across the wrap the forward distance is what the backward distance leaves of the circle (R72). -/
theorem pastRaw_iff_forward_of_lt (h : t2 < t1) :
    pastRaw t1 t2 ovf = true ↔ (t2 - t1).toNat < 2 ^ w.bits - ovf.toNat := by
  have hlt := BitVec.lt_def.mp h
  have hbound := t1.isLt
  rw [pastRaw_iff, BitVec.toNat_sub_of_lt h]
  omega

/-- R72 for `past`, without a wrap. -/
theorem past_iff_forward_of_le (h : t1 ≤ t2) : past t1 t2 = true ↔ (t2 - t1).toNat ≤ 2 ^ (w.bits - 1) - 2 := by
  have hhalf := two_le_half w
  rw [past, pastRaw_iff_forward_of_le _ h, maxValueOverflow_toNat_eq_pow (width_bits_pos w)]
  omega

/-- R72 for `past`, across the wrap. -/
theorem past_iff_forward_of_lt (h : t2 < t1) : past t1 t2 = true ↔ (t2 - t1).toNat ≤ 2 ^ (w.bits - 1) := by
  have hhalf := two_le_half w
  rw [past, pastRaw_iff_forward_of_lt _ h, maxValueOverflow_toNat_eq_pow (width_bits_pos w),
    two_pow_eq_two_mul_half (width_bits_pos w)]
  omega

/-- Distinct operands have a forward distance. -/
theorem one_le_forward_of_lt (h : t2 < t1) : 1 ≤ (t2 - t1).toNat := by
  have hbound := t1.isLt
  rw [BitVec.toNat_sub_of_lt h]
  omega

end ForwardDistance

/-- Settles O26: R70's two branches by the forward distance; at distance `OVF` the two branches of `past` differ. -/
theorem pastByForwardDistance : Obligations.PastByForwardDistance := by
  unfold Obligations.PastByForwardDistance
  refine ⟨fun w t1 t2 ovf => ⟨?raw, ?default, one_le_forward_of_lt⟩, fun w => ?notAlone⟩
  case raw =>
    exact answers_pastRaw_ite_ite (pastRaw_iff_forward_of_le ovf)
      fun h => pastRaw_iff_forward_of_lt ovf (BitVec.not_le.mp h)
  case default =>
    exact answers_past_iff_pastRaw.mpr <| answers_pastRaw_ite_ite past_iff_forward_of_le
      fun h => past_iff_forward_of_lt (BitVec.not_le.mp h)
  case notAlone =>
    refine ⟨0#w.bits, maxValueOverflow w.bits, maxValue w.bits, maxValueOverflow w.bits - 1#w.bits, ?_,
      answers_past_zero_iff.mpr ?_, answers_past_one_iff.mpr ?_⟩ <;> cases w <;> decide

/-- Equal operands are in each other's past (90_conflicts.md C1). -/
theorem past_self (w : Width) (t : TickCount w.bits) : past t t = true := by
  have hhalf := two_le_half w
  rw [past_iff t t (width_bits_pos w)]
  omega

/-- Of two distinct operands at most one is before the other, whatever the threshold. -/
theorem not_pastRaw_both_ways {t1 t2 : TickCount W} (ovf : TickCount W) (hne : t1 ≠ t2) :
    ¬ (pastRaw t1 t2 ovf = true ∧ pastRaw t2 t1 ovf = true) := by
  rw [pastRaw_iff, pastRaw_iff]
  rw [Ne, ← BitVec.toNat_inj] at hne
  omega

/-- Neither operand is before the other exactly at a distance of the threshold. -/
theorem not_pastRaw_either_way_iff (t1 t2 ovf : TickCount W) :
    (¬ pastRaw t1 t2 ovf = true ∧ ¬ pastRaw t2 t1 ovf = true) ↔
      (t1.toNat = t2.toNat + ovf.toNat ∨ t2.toNat = t1.toNat + ovf.toNat) := by
  rw [pastRaw_iff, pastRaw_iff]
  omega

/-- Settles O27: each clause is R70's condition at the distance it names. -/
theorem pastRawAtTheThreshold : Obligations.PastRawAtTheThreshold := by
  unfold Obligations.PastRawAtTheThreshold
  intro w t1 t2 ovf
  simp only [answers_pastRaw_one_iff, answers_pastRaw_zero_iff, answers_past_one_iff, pastRaw_iff, BitVec.le_def,
    BitVec.lt_def]
  refine ⟨answers_pastRaw_self t1 ovf, past_self w t1, ?_, ?_, ?_, ?_, fun hne =>
    ⟨_, _, (answers_pastRaw ..).mpr rfl, (answers_pastRaw ..).mpr rfl, ?atMostOne, ?neither⟩⟩
  case atMostOne =>
    rw [b2v_eq_one_iff, b2v_eq_one_iff]
    exact not_pastRaw_both_ways ovf hne
  case neither =>
    rw [b2v_eq_zero_iff, b2v_eq_zero_iff]
    exact not_pastRaw_either_way_iff t1 t2 ovf
  all_goals omega

/-- Settles O49: `past` is `past_raw` at a threshold that equal operands stay below; the threshold 0 they do not. -/
theorem pastOfEqualOperands : Obligations.PastOfEqualOperands := by
  unfold Obligations.PastOfEqualOperands
  simp only [answers_past_one_iff, answers_pastRaw_zero_iff]
  refine fun w a b => ⟨past_self w a, ?zeroThreshold, not_pastRaw_both_ways _⟩
  case zeroThreshold => simp [pastRaw_iff]

/-- Threshold 0: no forward distance is below it, every backward distance above it. -/
theorem pastRaw_zero_iff (t1 t2 : TickCount W) : pastRaw t1 t2 0#W = true ↔ t2 < t1 := by
  rw [pastRaw_iff, BitVec.toNat_zero, BitVec.lt_def]
  omega

/-- Threshold MAX: every forward distance is below it but the largest, no backward distance above it. -/
theorem pastRaw_maxValue_iff (t1 t2 : TickCount W) :
    pastRaw t1 t2 (maxValue W) = true ↔ t1 ≤ t2 ∧ ¬ (t1 = 0#W ∧ t2 = maxValue W) := by
  have hbound := t1.isLt
  have hbound' := t2.isLt
  rw [pastRaw_iff, BitVec.le_def, ← BitVec.toNat_inj, ← BitVec.toNat_inj, BitVec.toNat_zero, maxValue_toNat]
  omega

/-- Settles O28: R70's condition at either end of the range of thresholds. -/
theorem pastRawAtExtremeThresholds : Obligations.PastRawAtExtremeThresholds := by
  unfold Obligations.PastRawAtExtremeThresholds
  exact fun w t1 t2 => ⟨answers_pastRaw_ite (pastRaw_zero_iff t1 t2), answers_pastRaw_ite (pastRaw_maxValue_iff t1 t2)⟩

section TrueOrder

variable {m e : Nat} {t t' ovf : TickCount W}

/-- On a counter of modulus `m`, a tick count is before the one `e` later, and not after it, within the contract of
70_reset_and_hazards.md R185: the later one is ahead by `e`, or behind by `m - e` if the counter has wrapped. -/
theorem pastRaw_of_pastContract (hc : PastContract m ovf.toNat e) (ht : t.toNat < m)
    (ht' : t'.toNat = (t.toNat + e) % m) : pastRaw t t' ovf = true ∧ ¬ pastRaw t' t ovf = true := by
  obtain ⟨hpos, hlt, hhalf⟩ := hc
  have hcases : t'.toNat = t.toNat + e ∨ t'.toNat + m = t.toNat + e := by
    rw [ht']
    by_cases hwrap : t.toNat + e < m
    · exact .inl (Nat.mod_eq_of_lt hwrap)
    · rw [Nat.mod_eq_sub_mod (Nat.le_of_not_lt hwrap), Nat.mod_eq_of_lt (by omega)]
      omega
  rw [pastRaw_iff, pastRaw_iff]
  omega

/-- On the full circle the counter's modulus is `2 ^ W`. -/
theorem pastRaw_of_pastContract_full (t : TickCount W) (hc : PastContract (2 ^ W) ovf.toNat e) :
    pastRaw t (t + BitVec.ofNat W e) ovf = true ∧ ¬ pastRaw (t + BitVec.ofNat W e) t ovf = true := by
  apply pastRaw_of_pastContract hc t.isLt
  rw [BitVec.toNat_add, BitVec.toNat_ofNat, Nat.add_mod_mod]

/-- Above the half range the contract's conclusion fails: from MAX, advancing by `overflow - 1` wraps to a count less
than `overflow + 1` behind, which R70 does not take for a wrap. -/
theorem not_pastRaw_maxValue_add (hW : 0 < W) (h : 2 ^ (W - 1) < ovf.toNat) :
    ¬ pastRaw (maxValue W) (maxValue W + BitVec.ofNat W (ovf.toNat - 1)) ovf = true := by
  have hfull := two_pow_eq_two_mul_half hW
  have hbound := ovf.isLt
  have hwrap : (maxValue W + BitVec.ofNat W (ovf.toNat - 1)).toNat = ovf.toNat - 2 := by
    rw [BitVec.toNat_add, BitVec.toNat_ofNat, maxValue_toNat, Nat.add_mod_mod, Nat.mod_eq_sub_mod (by omega),
      Nat.mod_eq_of_lt (by omega)]
    omega
  rw [pastRaw_iff, hwrap, maxValue_toNat]
  omega

end TrueOrder

/-- Settles O29: R185's contract at the modulus `2 ^ W`, and a failure outside it for each larger threshold. -/
theorem pastAgreesWithTrueOrder : Obligations.PastAgreesWithTrueOrder := by
  unfold Obligations.PastAgreesWithTrueOrder
  simp only [answers_pastRaw_one_iff, answers_pastRaw_zero_iff, answers_past_one_iff, answers_past_zero_iff]
  intro w
  have hW := width_bits_pos w
  refine ⟨fun t ovf e hc => pastRaw_of_pastContract_full t hc, fun ovf h => ?aboveHalf, fun t e he he' => ?default⟩
  case aboveHalf =>
    have hhalf := two_le_half w
    exact ⟨maxValue w.bits, ovf.toNat - 1, by omega, by omega, fun ⟨hwrapped, _⟩ =>
      not_pastRaw_maxValue_add hW h hwrapped⟩
  case default =>
    have hhalf := two_le_half w
    apply pastRaw_of_pastContract_full t
    rw [maxValueOverflow_toNat_eq_pow hW, two_pow_eq_two_mul_half hW]
    exact ⟨he, by omega, by omega⟩

/-- Settles O30: R185's contract at the counter's own modulus, which the word holds. -/
theorem pastRawOrdersAReducedCounter : Obligations.PastRawOrdersAReducedCounter := by
  unfold Obligations.PastRawOrdersAReducedCounter
  refine ⟨fun w t ovf mx e ht hc => ?reduced, (answers_pastRaw_one_iff (w := .w32)).mpr ?forward,
    (answers_pastRaw_zero_iff (w := .w32)).mpr ?backward⟩
  case reduced =>
    rw [answers_pastRaw_one_iff, answers_pastRaw_zero_iff]
    apply pastRaw_of_pastContract hc (Nat.lt_succ_of_le ht)
    rw [BitVec.toNat_ofNat]
    exact Nat.mod_eq_of_lt (Nat.lt_of_lt_of_le (Nat.mod_lt _ (Nat.succ_pos _)) mx.isLt)
  case forward | backward => decide

end Sys2Proof.Machine
end

section
/-! PROOFS. The adder's residues, its loop's rounds and its corner cases (41_adder.md R92 to R98,
44_properties.md R131, R132, R139). -/

namespace Sys2Proof.Machine

variable {W : Nat}

section Residue

variable (r0 t1 k mx : TickCount W)

/-- R92's closed form as a characterisation: the one value inside the modulus with the residue of `r0`. -/
theorem eq_normalize_iff (x : TickCount W) :
    (x ≤ mx ∧ x.toNat % (mx.toNat + 1) = r0.toNat % (mx.toNat + 1)) ↔ x = normalize r0 mx := by
  constructor
  · rintro ⟨hle, hmod⟩
    apply BitVec.eq_of_toNat_eq
    rw [normalize_toNat, ← hmod, Nat.mod_eq_of_lt (Nat.lt_succ_of_le hle)]
  · rintro rfl
    exact ⟨normalize_le r0 mx, by rw [normalize_toNat, Nat.mod_mod]⟩

/-- Normalising changes exactly the values outside the modulus. -/
theorem normalize_eq_self_iff : normalize r0 mx = r0 ↔ r0 ≤ mx :=
  ⟨fun h => h ▸ normalize_le r0 mx, normalize_of_le⟩

/-- With no ticks `add_raw` only normalises. -/
theorem addRaw_zero : addRaw t1 0#W mx = normalize t1 mx := by rw [addRaw, addW_eq, BitVec.add_zero]

variable {t1 k mx} in
/-- R96: the response is the true modular sum if the native sum does not wrap, or wraps by a multiple of the modulus. -/
theorem addRaw_toNat_eq_emod
    (h : (0 ≤ (t1.toNat : Int) + k.toInt ∧ (t1.toNat : Int) + k.toInt ≤ 2 ^ W - 1) ∨ (mx.toNat + 1) ∣ 2 ^ W) :
    ((addRaw t1 k mx).toNat : Int) = ((t1.toNat : Int) + k.toInt) % (mx.toNat + 1) := by
  rw [addRaw_toNat]
  push_cast
  rw [add_toNat_eq_emod]
  obtain ⟨hlow, hhigh⟩ | hdvd := h
  · rw [Int.emod_eq_of_lt hlow (Int.lt_of_le_sub_one hhigh)]
  · exact Int.emod_emod_of_dvd _ (by exact_mod_cast hdvd)

end Residue

section Rounds

variable {r0 mx r : TickCount W} {n : Nat}

/-- The loop stops at one place only, after one number of rounds (R93). -/
theorem normalizeLoop_unique (h : NormalizeLoop mx r0 n r) :
    n = r0.toNat / (mx.toNat + 1) ∧ r.toNat = r0.toNat % (mx.toNat + 1) := by
  induction h with
  | stop r hle =>
    have hlt : r.toNat < mx.toNat + 1 := Nat.lt_succ_of_le hle
    exact ⟨(Nat.div_eq_of_lt hlt).symm, (Nat.mod_eq_of_lt hlt).symm⟩
  | round r n res hlt _ ih =>
    obtain ⟨hn, hres⟩ := ih
    rw [normalizeRound_toNat hlt] at hn hres
    exact ⟨by rw [hn, Nat.div_eq_sub_div (Nat.succ_pos _) hlt], by rw [hres, ← Nat.mod_eq_sub_mod hlt]⟩

/-- A round takes at least 1 off, so there are no more rounds than `r0` itself says. -/
theorem rounds_le (r0 mx : TickCount W) : r0.toNat / (mx.toNat + 1) ≤ 2 ^ W - 1 :=
  (Nat.div_le_self _ _).trans (Nat.le_sub_one_of_lt r0.isLt)

/-- Only modulus 1 takes as little as 1 off in a round, and only from the largest value that often. -/
theorem rounds_eq_max_iff (hW : 0 < W) (r0 mx : TickCount W) :
    r0.toNat / (mx.toNat + 1) = 2 ^ W - 1 ↔ mx = 0#W ∧ r0 = maxValue W := by
  have hfull := two_pow_eq_two_mul_half hW
  have hhalf : 0 < 2 ^ (W - 1) := by positivity
  have hbound := r0.isLt
  rw [← BitVec.toNat_inj, ← BitVec.toNat_inj, maxValue_toNat, BitVec.toNat_zero]
  by_cases hmx : mx.toNat = 0
  · simp [hmx]
  · have htwo : r0.toNat / (mx.toNat + 1) ≤ r0.toNat / 2 := Nat.div_le_div_left (by omega) (by decide)
    omega

end Rounds

/-- Settles O33: the response is the native sum, normalised. -/
theorem addRawIsTheUniqueResidue : Obligations.AddRawIsTheUniqueResidue := by
  unfold Obligations.AddRawIsTheUniqueResidue
  refine fun w t1 k mx => ⟨_, (answers_addRaw ..).mpr rfl, addRaw_toNat t1 k mx, ?fullModulus, eq_normalize_iff _ mx⟩
  case fullModulus => rintro rfl; exact addRaw_maxValue t1 k

/-- Settles O34: the loop stops where the closed form says, after as many rounds as the quotient says. -/
theorem normalisationLoopTerminates : Obligations.NormalisationLoopTerminates := by
  unfold Obligations.NormalisationLoopTerminates
  refine fun w r0 mx => ⟨⟨_, _, normalizeLoop_normalize mx r0⟩, fun n r h => ?rounds, fun n r h => ?most⟩
  case rounds =>
    obtain ⟨hn, hr⟩ := normalizeLoop_unique h
    exact ⟨hn, hn ▸ rounds_le r0 mx, hr⟩
  case most =>
    obtain ⟨rfl, _⟩ := normalizeLoop_unique h
    exact rounds_eq_max_iff (width_bits_pos w) r0 mx

/-- What `add_raw` answers with no ticks (R95, R131). -/
theorem answers_addRaw_zero (w : Width) (t mx : TickCount w.bits) :
    ∃ r, Answers w (.addRaw w t 0#w.bits mx) r ∧ r.toNat = t.toNat % (mx.toNat + 1) ∧ (r = t ↔ t ≤ mx) :=
  ⟨normalize t mx, (answers_addRaw ..).mpr (addRaw_zero t mx).symm, normalize_toNat t mx, normalize_eq_self_iff t mx⟩

/-- Settles O35: whatever the native sum, it is normalised. -/
theorem addRawNormalisesAnyOperand : Obligations.AddRawNormalisesAnyOperand := by
  unfold Obligations.AddRawNormalisesAnyOperand
  exact fun w t1 k mx => ⟨⟨_, (answers_addRaw ..).mpr rfl, normalize_le _ mx⟩, answers_addRaw_zero w t1 mx,
    (answers_addRaw ..).mpr (normalize_zero _).symm⟩

/-- Settles O36: the general fact, and the three examples computed. -/
theorem addRawIsTheModularSumWithinTheNativeRange : Obligations.AddRawIsTheModularSumWithinTheNativeRange := by
  unfold Obligations.AddRawIsTheModularSumWithinTheNativeRange
  refine ⟨fun w t1 k mx h => ⟨_, (answers_addRaw ..).mpr rfl, addRaw_toNat_eq_emod h⟩,
    (answers_addRaw .w16 ..).mpr ?belowZero, (answers_addRaw .w16 ..).mpr ?inside,
    (answers_addRaw .w16 ..).mpr ?aboveMax⟩
  case belowZero | inside | aboveMax => decide

/-- Settles O37: the most negative pattern is its own negation, so adding it twice adds 0. -/
theorem addOfTheMostNegativeTicks : Obligations.AddOfTheMostNegativeTicks := by
  unfold Obligations.AddOfTheMostNegativeTicks
  intro w a
  have hneg : -BitVec.ofNat w.bits (2 ^ (w.bits - 1)) = BitVec.ofNat w.bits (2 ^ (w.bits - 1)) := by
    cases w <;> decide
  refine ⟨by cases w <;> decide, hneg, _, (answers_add ..).mpr rfl, ?value, (answers_add ..).mpr ?twice⟩
  case value => rw [BitVec.toNat_add, BitVec.toNat_ofNat, Nat.add_mod_mod]
  case twice => rw [add_assoc, eq_neg_iff_add_eq_zero.mp hneg.symm, add_zero]

/-- Settles O46: with no ticks there is nothing to add, and `add_raw` only normalises. -/
theorem addingNoTicks : Obligations.AddingNoTicks := by
  unfold Obligations.AddingNoTicks
  exact fun w a mx => ⟨(answers_add ..).mpr (BitVec.add_zero a).symm, answers_addRaw_zero w a mx⟩

/-- Settles O47: the pattern of `ticks` reads back as `ticks`, and `W`-bit addition and negation cancel. -/
theorem addRoundTrip : Obligations.AddRoundTrip := by
  unfold Obligations.AddRoundTrip
  exact fun w a ticks hlow hhigh => ⟨(ofInt_toInt_eq_iff (width_bits_pos w) ticks).mpr ⟨hlow, hhigh⟩, _,
    (answers_add ..).mpr rfl, (answers_add ..).mpr (add_neg_cancel_right a _).symm⟩

/-- Settles O52: `W`-bit subtraction undoes `W`-bit addition. -/
theorem subUndoesAdd : Obligations.SubUndoesAdd := by
  unfold Obligations.SubUndoesAdd
  exact fun w a k => ⟨_, (answers_add ..).mpr rfl, (answers_sub ..).mpr (add_sub_cancel_left a k).symm⟩

/-- Settles O53: `W`-bit addition undoes `W`-bit subtraction. -/
theorem addUndoesSub : Obligations.AddUndoesSub := by
  unfold Obligations.AddUndoesSub
  exact fun w a b => ⟨_, (answers_sub ..).mpr rfl, (answers_add ..).mpr (add_sub_cancel b a).symm⟩

end Sys2Proof.Machine
end

section
/-! PROOFS. The subtractor's folded distance, its three arms as patterns, and when it fits (42_subtractor.md R112 to
R117, 44_properties.md R135, R144). -/

namespace Sys2Proof.Machine

variable {W : Nat}

section Fold

variable (t1 t2 ovf mx : TickCount W)

/-- What the folded distance can be: the literal distance within the threshold, one modulus less or more beyond it. -/
theorem foldedDistance_cases :
    (t1.toNat ≤ t2.toNat + ovf.toNat ∧ t2.toNat ≤ t1.toNat + ovf.toNat ∧
      foldedDistance t1 t2 ovf mx = (t1.toNat : Int) - t2.toNat) ∨
    (t2.toNat + ovf.toNat < t1.toNat ∧
      foldedDistance t1 t2 ovf mx = (t1.toNat : Int) - t2.toNat - (mx.toNat + 1)) ∨
    (t1.toNat + ovf.toNat < t2.toNat ∧
      foldedDistance t1 t2 ovf mx = (t1.toNat : Int) - t2.toNat + (mx.toNat + 1)) := by
  simp only [foldedDistance]
  split_ifs <;> omega

/-- R110's four arms are R112's three cases. -/
theorem subRawValue_eq_foldedDistance : subRawValue t1 t2 ovf mx = foldedDistance t1 t2 ovf mx := by
  have hfold := foldedDistance_cases t1 t2 ovf mx
  rw [subRawValue_eq]
  split_ifs <;> omega

/-- `sub_raw` delivers the pattern of the folded distance. -/
theorem subRaw_eq_ofInt : subRaw t1 t2 ovf mx = BitVec.ofInt W (foldedDistance t1 t2 ovf mx) := by
  rw [subRaw, pat_eq, subRawValue_eq_foldedDistance]

/-- Folding moves the distance by a multiple of the modulus. -/
theorem modulus_dvd_foldedDistance_sub :
    (mx.toNat + 1 : Int) ∣ foldedDistance t1 t2 ovf mx - ((t1.toNat : Int) - t2.toNat) :=
  subRawValue_eq_foldedDistance t1 t2 ovf mx ▸ modulus_dvd_subRawValue_sub t1 t2 ovf mx

/-- Exchanging the operands negates the folded distance. -/
theorem foldedDistance_swap : foldedDistance t1 t2 ovf mx = -foldedDistance t2 t1 ovf mx := by
  have hfold := foldedDistance_cases t1 t2 ovf mx
  have hfold' := foldedDistance_cases t2 t1 ovf mx
  omega

/-- The response reads as the folded distance exactly when that fits. -/
theorem subRaw_toInt_eq_iff (hW : 0 < W) : (subRaw t1 t2 ovf mx).toInt = foldedDistance t1 t2 ovf mx ↔
    -(2 ^ (W - 1)) ≤ foldedDistance t1 t2 ovf mx ∧ foldedDistance t1 t2 ovf mx ≤ 2 ^ (W - 1) - 1 := by
  rw [subRaw_eq_ofInt]
  exact ofInt_toInt_eq_iff hW _

end Fold

section Arms

variable {t1 t2 ovf : TickCount W} (mx : TickCount W)

/-- The modulus as a pattern. -/
theorem ofInt_modulus : BitVec.ofInt W (mx.toNat + 1) = mx + 1#W := by simp [BitVec.ofInt_add]

/-- Within the threshold `sub_raw` delivers the `W`-bit difference. -/
theorem subRaw_of_within (h : t1.toNat ≤ t2.toNat + ovf.toNat) (h' : t2.toNat ≤ t1.toNat + ovf.toNat) :
    subRaw t1 t2 ovf mx = t1 - t2 := by
  have hfold : foldedDistance t1 t2 ovf mx = (t1.toNat : Int) - t2.toNat := by
    have := foldedDistance_cases t1 t2 ovf mx
    omega
  rw [subRaw_eq_ofInt, hfold, ← sub_eq_ofInt]

/-- Beyond the threshold, `time1` the larger: one modulus less. -/
theorem subRaw_of_above (h : t2.toNat + ovf.toNat < t1.toNat) :
    subRaw t1 t2 ovf mx = BitVec.ofInt W ((t1.toNat : Int) - t2.toNat - (mx.toNat + 1)) := by
  have hfold : foldedDistance t1 t2 ovf mx = (t1.toNat : Int) - t2.toNat - (mx.toNat + 1) := by
    have := foldedDistance_cases t1 t2 ovf mx
    omega
  rw [subRaw_eq_ofInt, hfold]

/-- Beyond the threshold, `time2` the larger: one modulus more. -/
theorem subRaw_of_below (h : t1.toNat + ovf.toNat < t2.toNat) :
    subRaw t1 t2 ovf mx = BitVec.ofInt W ((t1.toNat : Int) - t2.toNat + (mx.toNat + 1)) := by
  have hfold : foldedDistance t1 t2 ovf mx = (t1.toNat : Int) - t2.toNat + (mx.toNat + 1) := by
    have := foldedDistance_cases t1 t2 ovf mx
    omega
  rw [subRaw_eq_ofInt, hfold]

/-- The first wrapped arm in `W`-bit arithmetic. -/
theorem subRaw_of_above_word (h : t2.toNat + ovf.toNat < t1.toNat) :
    subRaw t1 t2 ovf mx = t1 - t2 - (mx + 1#W) := by
  rw [subRaw_of_above mx h, Int.sub_eq_add_neg, BitVec.ofInt_add, BitVec.ofInt_neg, ofInt_modulus, ← sub_eq_ofInt,
    ← sub_eq_add_neg]

/-- The second wrapped arm in `W`-bit arithmetic. -/
theorem subRaw_of_below_word (h : t1.toNat + ovf.toNat < t2.toNat) :
    subRaw t1 t2 ovf mx = t1 - t2 + (mx + 1#W) := by
  rw [subRaw_of_below mx h, BitVec.ofInt_add, ofInt_modulus, ← sub_eq_ofInt]

/-- Threshold MAX never wraps. -/
theorem subRaw_maxThreshold (t1 t2 : TickCount W) : subRaw t1 t2 (maxValue W) mx = t1 - t2 := by
  have hbound := BitVec.le_def.mp (le_maxValue t1)
  have hbound' := BitVec.le_def.mp (le_maxValue t2)
  exact subRaw_of_within mx (by omega) (by omega)

/-- R110's four arms in `W`-bit arithmetic deliver the same pattern (R113). -/
theorem subRaw_eq_word_arms (t1 t2 ovf mx : TickCount W) :
    subRaw t1 t2 ovf mx =
      if t2 ≤ t1 then (if ovf < t1 - t2 then t1 - t2 - mx - 1#W else t1 - t2)
      else (if ovf < t2 - t1 then mx + 1#W - (t2 - t1) else -(t2 - t1)) := by
  by_cases h : t2 ≤ t1
  · have hle := BitVec.le_def.mp h
    simp only [if_pos h, BitVec.lt_def, BitVec.toNat_sub_of_le h]
    split
    · rw [subRaw_of_above_word mx (by omega), ← sub_sub]
    · rw [subRaw_of_within mx (by omega) (by omega)]
  · have hlt := BitVec.lt_def.mp (BitVec.not_le.mp h)
    simp only [if_neg h, BitVec.lt_def, BitVec.toNat_sub_of_le (BitVec.le_of_lt (BitVec.not_le.mp h))]
    split
    · rw [subRaw_of_below_word mx (by omega), add_comm, sub_eq_add_neg (mx + 1#W), neg_sub]
    · rw [subRaw_of_within mx (by omega) (by omega), neg_sub]

end Arms

/-- Settles O40: R110's arms are the folded distance; the full modulus and the largest threshold leave the `W`-bit
difference. -/
theorem subRawFoldsByOneModulus : Obligations.SubRawFoldsByOneModulus := by
  unfold Obligations.SubRawFoldsByOneModulus
  refine fun w t1 t2 ovf mx => ⟨(answers_subRaw ..).mpr (subRaw_eq_ofInt ..).symm, modulus_dvd_foldedDistance_sub ..,
    t1 - t2, (answers_sub ..).mpr rfl, (answers_subRaw ..).mpr (subRaw_maxValue ..).symm,
    (answers_subRaw ..).mpr (subRaw_maxThreshold ..).symm⟩

/-- Settles O41: the pattern of an integer reads as it exactly in the signed range, and patterns add and negate as
integers do. -/
theorem subRawDeliversModuloTheWord : Obligations.SubRawDeliversModuloTheWord := by
  unfold Obligations.SubRawDeliversModuloTheWord
  refine ⟨fun w t1 t2 ovf mx => ⟨_, (answers_subRaw ..).mpr rfl, subRaw_toInt_eq_iff _ _ _ _ (width_bits_pos w),
    ?congruent, subRaw_eq_word_arms t1 t2 ovf mx⟩, fun w => (answers_subRaw ..).mpr ?half⟩
  case congruent => rw [subRaw_eq_ofInt]; exact pow_dvd_ofInt_toInt_sub _
  case half => cases w <;> decide

/-- Settles O42: each clause names one arm by its distance. -/
theorem subRawAtTheThreshold : Obligations.SubRawAtTheThreshold := by
  unfold Obligations.SubRawAtTheThreshold
  refine ⟨fun w t1 t2 ovf mx => ?arms, (answers_subRaw .w32 ..).mpr ?atThreshold,
    (answers_subRaw .w32 ..).mpr ?aboveThreshold⟩
  case arms =>
    simp only [answers_subRaw, BitVec.lt_def]
    refine ⟨?equal, fun h hd => ?_, fun h hd => ?_, fun h hd => ?_, fun h hd => ?_⟩
    case equal => rintro rfl; exact (subRaw_self t1 ovf mx).symm
    · exact (subRaw_of_within mx (by omega) (by omega)).symm
    · rw [neg_sub]; exact (subRaw_of_within mx (by omega) (by omega)).symm
    · exact (subRaw_of_above mx (by omega)).symm
    · rw [subRaw_of_below mx (by omega)]; congr 1; ring
  case atThreshold | aboveThreshold => decide

/-- Settles O45: the wrapped arms at threshold 0 and at modulus 1, and the literal arm at threshold MAX. -/
theorem subRawAtExtremeParameters : Obligations.SubRawAtExtremeParameters := by
  unfold Obligations.SubRawAtExtremeParameters
  intro w t1 t2 ovf mx
  simp only [answers_subRaw]
  refine ⟨fun h => (subRaw_of_above_word mx ?_).symm, fun h => (subRaw_of_below_word mx ?_).symm, fun h => ?_,
    fun h => ?_, (subRaw_maxThreshold mx t1 t2).symm⟩
  · exact h
  · exact h
  · rw [subRaw_of_above_word _ (by omega), BitVec.zero_add]
  · rw [subRaw_of_below_word _ (by omega), BitVec.zero_add]

section Contract

variable {t1 t2 ovf mx : TickCount W}

/-- Within the contract the folded distance exceeds the threshold by at most 1. -/
theorem abs_foldedDistance_le (hc : SubContract t1 t2 ovf mx) : |foldedDistance t1 t2 ovf mx| ≤ ovf.toNat + 1 := by
  obtain ⟨h1, h2, hovf⟩ := hc
  rw [BitVec.le_def] at h1 h2
  have hfold := foldedDistance_cases t1 t2 ovf mx
  rw [abs_le]
  omega

/-- It does so only for operands half an even modulus apart, with the sign of the folded direction. -/
theorem half_modulus_of_abs_foldedDistance_eq (hc : SubContract t1 t2 ovf mx)
    (h : |foldedDistance t1 t2 ovf mx| = ovf.toNat + 1) :
    mx.toNat % 2 = 1 ∧
      ((t1.toNat = t2.toNat + (mx.toNat + 1) / 2 ∧ foldedDistance t1 t2 ovf mx = -((mx.toNat + 1) / 2)) ∨
       (t2.toNat = t1.toNat + (mx.toNat + 1) / 2 ∧ foldedDistance t1 t2 ovf mx = (mx.toNat + 1) / 2)) := by
  obtain ⟨h1, h2, hovf⟩ := hc
  rw [BitVec.le_def] at h1 h2
  have hfold := foldedDistance_cases t1 t2 ovf mx
  have hsign := abs_eq (by positivity : (0 : Int) ≤ ovf.toNat + 1) |>.mp h
  omega

/-- Within the contract the default threshold is below half the circle. -/
theorem overflow_lt_half (hW : 0 < W) (hovf : ovf.toNat = mx.toNat / 2) : ovf.toNat + 1 ≤ 2 ^ (W - 1) := by
  have hfull := two_pow_eq_two_mul_half hW
  have hbound := mx.isLt
  omega

/-- Within the contract the folded distance reaches half the circle in one case: the full modulus, and `time2` half the
circle ahead. -/
theorem foldedDistance_eq_half_iff (hW : 0 < W) (hc : SubContract t1 t2 ovf mx) :
    foldedDistance t1 t2 ovf mx = 2 ^ (W - 1) ↔ mx = maxValue W ∧ t2.toNat = t1.toNat + 2 ^ (W - 1) := by
  obtain ⟨h1, h2, hovf⟩ := hc
  rw [BitVec.le_def] at h1 h2
  have hfold := foldedDistance_cases t1 t2 ovf mx
  have hfull := two_pow_eq_two_mul_half hW
  have hcast : ((2 ^ (W - 1) : Nat) : Int) = 2 ^ (W - 1) := by norm_num
  have hbound := mx.isLt
  rw [← BitVec.toNat_inj, maxValue_toNat]
  omega

/-- Within the contract the response reads as the folded distance but in that case (R115). -/
theorem subRaw_toInt_eq_iff_of_subContract (hW : 0 < W) (hc : SubContract t1 t2 ovf mx) :
    (subRaw t1 t2 ovf mx).toInt = foldedDistance t1 t2 ovf mx ↔
      ¬ (mx = maxValue W ∧ t2.toNat = t1.toNat + 2 ^ (W - 1)) := by
  have habs := abs_le.mp (abs_foldedDistance_le hc)
  have hhalf : ((ovf.toNat : Int) + 1) ≤ 2 ^ (W - 1) := by
    obtain ⟨_, _, hovf⟩ := hc
    exact_mod_cast overflow_lt_half hW hovf
  rw [subRaw_toInt_eq_iff _ _ _ _ hW, ← foldedDistance_eq_half_iff hW hc]
  omega

/-- In that case the response reads as the opposite half of the circle. -/
theorem subRaw_toInt_of_half (hW : 0 < W) (h : mx = maxValue W ∧ t2.toNat = t1.toNat + 2 ^ (W - 1)) :
    (subRaw t1 t2 ovf mx).toInt = -(2 ^ (W - 1)) := by
  obtain ⟨rfl, hd⟩ := h
  rw [subRaw_maxValue]
  exact sub_toInt_of_half_circle hW (.inr hd)

/-- An elapsed distance within the threshold is the folded distance: the two are congruent modulo the counter's modulus,
and less than one modulus apart. -/
theorem foldedDistance_eq_of_elapsed {e : Int} (hc : SubContract t1 t2 ovf mx) (he : |e| ≤ ovf.toNat)
    (ht : (t1.toNat : Int) = ((t2.toNat : Int) + e) % (mx.toNat + 1)) : foldedDistance t1 t2 ovf mx = e := by
  have hdvd : (mx.toNat + 1 : Int) ∣ foldedDistance t1 t2 ovf mx - e := by
    have hfold := modulus_dvd_foldedDistance_sub t1 t2 ovf mx
    have helapsed := Int.dvd_self_sub_of_emod_eq ht.symm
    have hsplit : foldedDistance t1 t2 ovf mx - e = foldedDistance t1 t2 ovf mx - ((t1.toNat : Int) - t2.toNat) -
        ((t2.toNat : Int) + e - t1.toNat) := by ring
    rw [hsplit]
    exact dvd_sub hfold helapsed
  have hsmall : |foldedDistance t1 t2 ovf mx - e| < mx.toNat + 1 := by
    obtain ⟨h1, h2, hovf⟩ := hc
    rw [BitVec.le_def] at h1 h2
    have hfold := foldedDistance_cases t1 t2 ovf mx
    rw [abs_le] at he
    rw [abs_lt]
    omega
  exact Int.sub_eq_zero.mp (Int.eq_zero_of_abs_lt_dvd hdvd hsmall)

/-- A distance within the default threshold fits. -/
theorem ofInt_toInt_of_abs_le (hW : 0 < W) {e : Int} (hovf : ovf.toNat = mx.toNat / 2) (he : |e| ≤ ovf.toNat) :
    (BitVec.ofInt W e).toInt = e := by
  have habs := abs_le.mp he
  have hhalf : ((ovf.toNat : Int) + 1) ≤ 2 ^ (W - 1) := by exact_mod_cast overflow_lt_half hW hovf
  rw [ofInt_toInt_eq_iff hW]
  omega

/-- Within the contract `sub_raw` reads as the elapsed distance (R116). -/
theorem subRaw_toInt_of_elapsed (hW : 0 < W) {e : Int} (hc : SubContract t1 t2 ovf mx) (he : |e| ≤ ovf.toNat)
    (ht : (t1.toNat : Int) = ((t2.toNat : Int) + e) % (mx.toNat + 1)) : (subRaw t1 t2 ovf mx).toInt = e := by
  have hfold := foldedDistance_eq_of_elapsed hc he ht
  obtain ⟨_, _, hovf⟩ := hc
  rw [subRaw_eq_ofInt, hfold, ofInt_toInt_of_abs_le hW hovf he]

end Contract

/-- Settles O43: the exceptional pair is the one whose folded distance is half the circle. -/
theorem subRawFitsUnderTheDefaultRelation : Obligations.SubRawFitsUnderTheDefaultRelation := by
  unfold Obligations.SubRawFitsUnderTheDefaultRelation
  intro w t1 t2 ovf mx hc
  have hW := width_bits_pos w
  exact ⟨_, (answers_subRaw ..).mpr rfl, subRaw_toInt_eq_iff_of_subContract hW hc,
    fun h => ⟨(foldedDistance_eq_half_iff hW hc).mpr h, subRaw_toInt_of_half hW h⟩, abs_foldedDistance_le hc,
    half_modulus_of_abs_foldedDistance_eq hc⟩

/-- Settles O44: within the contract the folded distance is the elapsed one, and it fits. -/
theorem subRawIsTheTrueDistance : Obligations.SubRawIsTheTrueDistance := by
  unfold Obligations.SubRawIsTheTrueDistance
  exact fun w t1 t2 ovf mx e hc he ht => ⟨_, (answers_subRaw ..).mpr rfl,
    subRaw_toInt_of_elapsed (width_bits_pos w) hc he ht⟩

/-- Settles O54: `add_raw` delivers the true modular sum, whose distance from `t` is the elapsed `k`. -/
theorem subRawUndoesAddRaw : Obligations.SubRawUndoesAddRaw := by
  unfold Obligations.SubRawUndoesAddRaw
  intro w t ovf mx k ht hovf hk hrange
  have hW := width_bits_pos w
  have hticks : (pat w.bits k).toInt = k := ofInt_toInt_of_abs_le hW hovf hk
  have hsum : ((addRaw t (pat w.bits k) mx).toNat : Int) = ((t.toNat : Int) + k) % (mx.toNat + 1) := by
    rw [addRaw_toNat_eq_emod (by rw [hticks]; exact hrange.symm), hticks]
  have hback := subRaw_toInt_of_elapsed hW ⟨normalize_le _ mx, ht, hovf⟩ hk hsum
  exact ⟨_, (answers_addRaw ..).mpr rfl,
    (answers_subRaw ..).mpr (BitVec.toInt_inj.mp (hticks.trans hback.symm)), hticks⟩

section Negation

/-- A `W`-bit difference as a number: the difference of the numbers, around the circle if that is negative. -/
theorem sub_toNat_cases (a b : BitVec W) :
    (b.toNat ≤ a.toNat ∧ (a - b).toNat + b.toNat = a.toNat) ∨
    (a.toNat < b.toNat ∧ (a - b).toNat + b.toNat = a.toNat + 2 ^ W) := by
  have hbound := b.isLt
  by_cases h : b ≤ a
  · exact .inl ⟨h, by rw [BitVec.toNat_sub_of_le h, Nat.sub_add_cancel h]⟩
  · have hlt := BitVec.not_le.mp h
    have hlt' := BitVec.lt_def.mp hlt
    exact .inr ⟨hlt, by rw [BitVec.toNat_sub_of_lt hlt]; omega⟩

/-- Operands are half the circle apart, in either order, exactly when their difference is the most negative pattern. -/
theorem sub_eq_intMin_iff (hW : 0 < W) (a b : BitVec W) :
    a - b = BitVec.intMin W ↔ (a.toNat = b.toNat + 2 ^ (W - 1) ∨ b.toNat = a.toNat + 2 ^ (W - 1)) := by
  have hdiff := sub_toNat_cases a b
  have hfull := two_pow_eq_two_mul_half hW
  have hhalf : 2 ^ (W - 1) < 2 ^ W := Nat.pow_lt_pow_right one_lt_two (Nat.sub_one_lt hW.ne')
  rw [← BitVec.toNat_inj, BitVec.toNat_intMin, Nat.mod_eq_of_lt hhalf]
  omega

/-- The two differences read as negatives of each other but half the circle apart (R135). -/
theorem sub_toInt_eq_neg_iff (hW : 0 < W) (a b : BitVec W) : (a - b).toInt = -(b - a).toInt ↔
    ¬ (a.toNat = b.toNat + 2 ^ (W - 1) ∨ b.toNat = a.toNat + 2 ^ (W - 1)) := by
  constructor
  · intro hneg hhalf
    have hpos : (0 : Int) < 2 ^ (W - 1) := by positivity
    rw [sub_toInt_of_half_circle hW hhalf, sub_toInt_of_half_circle hW hhalf.symm] at hneg
    omega
  · intro hhalf
    have hne : b - a ≠ BitVec.intMin W := fun h => hhalf ((sub_eq_intMin_iff hW b a).mp h).symm
    rw [← neg_sub b a, BitVec.toInt_neg_of_ne_intMin hne]

end Negation

/-- Settles O50: exchanging the operands negates the pattern, and its reading but for the most negative one. -/
theorem subIsAntisymmetric : Obligations.SubIsAntisymmetric := by
  unfold Obligations.SubIsAntisymmetric
  intro w a b
  have hW := width_bits_pos w
  exact ⟨a - b, b - a, (answers_sub ..).mpr rfl, (answers_sub ..).mpr rfl, (neg_sub b a).symm,
    sub_toInt_eq_neg_iff hW a b,
    fun h => ⟨sub_toInt_of_half_circle hW h, sub_toInt_of_half_circle hW h.symm⟩⟩

/-- Settles O57: exchanging the operands negates the folded distance, and so its pattern. -/
theorem subRawIsAntisymmetric : Obligations.SubRawIsAntisymmetric := by
  unfold Obligations.SubRawIsAntisymmetric
  refine ⟨(answers_subRaw .w32 ..).mpr ?backward, (answers_subRaw .w32 ..).mpr ?forward, fun w t1 t2 ovf mx =>
    ⟨foldedDistance_swap t1 t2 ovf mx, _, _, (answers_subRaw ..).mpr rfl, (answers_subRaw ..).mpr rfl, ?pattern⟩⟩
  case backward | forward => decide
  case pattern => rw [subRaw_eq_ofInt, subRaw_eq_ofInt, negW_eq, foldedDistance_swap, BitVec.ofInt_neg]

end Sys2Proof.Machine
end

section
/-! PROOFS. Laws across the three sub-blocks (44_properties.md R133, R138, R142, R143, R145). -/

namespace Sys2Proof.Machine

variable {W : Nat}

/-- A pattern reads as positive exactly in the lower half of the circle, without 0. -/
theorem toInt_pos_iff_toNat (hW : 0 < W) (v : BitVec W) : 0 < v.toInt ↔ 1 ≤ v.toNat ∧ v.toNat ≤ 2 ^ (W - 1) - 1 := by
  have hfull := two_pow_eq_two_mul_half hW
  have hbound := v.isLt
  rw [BitVec.toInt_eq_toNat_cond]
  split <;> omega

section SignOfSub

variable {w : Width} (a b : TickCount w.bits)

/-- Where `past` says what the sign of the forward distance says (R133), by R72's two branches. -/
theorem past_iff_sub_pos_iff : ((past a b = true) ↔ 0 < (b - a).toInt) ↔
    ¬ ((b - a).toNat = 0 ∨ ((b - a).toNat = 2 ^ (w.bits - 1) - 1 ∧ a ≤ b) ∨
      ((b - a).toNat = 2 ^ (w.bits - 1) ∧ b < a)) := by
  have hhalf := two_le_half w
  rw [toInt_pos_iff_toNat (width_bits_pos w)]
  by_cases h : a ≤ b
  · have hnot : ¬ b < a := BitVec.not_lt.mpr h
    simp only [past_iff_forward_of_le h, h, hnot, and_true, and_false, or_false]
    omega
  · have hlt := BitVec.not_le.mp h
    have hpos := one_le_forward_of_lt hlt
    simp only [past_iff_forward_of_lt hlt, h, hlt, and_true, and_false, false_or]
    omega

end SignOfSub

/-- Settles O48: on either side of the wrap, `past` and the sign of the difference bound the forward distance by numbers
one apart, which leaves the pairs named. -/
theorem pastAgreesWithTheSignOfSub : Obligations.PastAgreesWithTheSignOfSub := by
  unfold Obligations.PastAgreesWithTheSignOfSub
  refine fun w a b => ⟨_, _, (answers_past ..).mpr rfl, (answers_sub ..).mpr rfl, b2v_cases _,
    toInt_pos_iff_toNat (width_bits_pos w) _, ?agree⟩
  case agree =>
    rw [b2v_eq_one_iff]
    exact past_iff_sub_pos_iff a b

section SignOfSubRaw

variable {t1 t2 ovf mx : TickCount W}

/-- Within the contract the response reads as positive when the folded distance is, but where that does not fit. -/
theorem subRaw_toInt_pos_iff (hW : 0 < W) (hc : SubContract t1 t2 ovf mx) : 0 < (subRaw t1 t2 ovf mx).toInt ↔
    0 < foldedDistance t1 t2 ovf mx ∧ ¬ (mx = maxValue W ∧ t2.toNat = t1.toNat + 2 ^ (W - 1)) := by
  by_cases hhalf : mx = maxValue W ∧ t2.toNat = t1.toNat + 2 ^ (W - 1)
  · have hpos : (0 : Int) < 2 ^ (W - 1) := by positivity
    rw [subRaw_toInt_of_half hW hhalf]
    exact iff_of_false (by omega) fun ⟨_, hfits⟩ => hfits hhalf
  · rw [(subRaw_toInt_eq_iff_of_subContract hW hc).mpr hhalf]
    simp only [hhalf, not_false_eq_true, and_true]

/-- The forward distance modulo the counter's modulus, for tick counts inside it. -/
theorem forward_emod_cases (h1 : t1 ≤ mx) (h2 : t2 ≤ mx) :
    (t1.toNat ≤ t2.toNat ∧ ((t2.toNat : Int) - t1.toNat) % (mx.toNat + 1) = (t2.toNat : Int) - t1.toNat) ∨
    (t2.toNat < t1.toNat ∧
      ((t2.toNat : Int) - t1.toNat) % (mx.toNat + 1) = (t2.toNat : Int) - t1.toNat + (mx.toNat + 1)) := by
  rw [BitVec.le_def] at h1 h2
  by_cases h : t1.toNat ≤ t2.toNat
  · exact .inl ⟨h, Int.emod_eq_of_lt (by omega) (by omega)⟩
  · refine .inr ⟨by omega, ?_⟩
    rw [← Int.add_emod_right, Int.emod_eq_of_lt (by omega) (by omega)]

/-- Where `past_raw` says what the sign of `sub_raw` says (R142). -/
theorem pastRaw_iff_subRaw_pos_iff (hW : 0 < W) (hc : SubContract t1 t2 ovf mx) :
    ((pastRaw t1 t2 ovf = true) ↔ 0 < (subRaw t2 t1 ovf mx).toInt) ↔
      ¬ ((1 ≤ ovf.toNat ∧ ((t2.toNat : Int) - t1.toNat) % (mx.toNat + 1) = 0) ∨
        (1 ≤ ovf.toNat ∧ ((t2.toNat : Int) - t1.toNat) % (mx.toNat + 1) = ovf.toNat ∧ t1 ≤ t2) ∨
        (mx = maxValue W ∧ ((t2.toNat : Int) - t1.toNat) % (mx.toNat + 1) = 2 ^ (W - 1) ∧ t2 < t1)) := by
  obtain ⟨h1, h2, hovf⟩ := hc
  have hfold := foldedDistance_cases t2 t1 ovf mx
  have hforward := forward_emod_cases h1 h2
  have hfull := two_pow_eq_two_mul_half hW
  have hcast : ((2 ^ (W - 1) : Nat) : Int) = 2 ^ (W - 1) := by norm_num
  rw [subRaw_toInt_pos_iff hW ⟨h2, h1, hovf⟩, pastRaw_iff, ← BitVec.toNat_inj, maxValue_toNat, BitVec.le_def,
    BitVec.lt_def]
  rw [BitVec.le_def] at h1 h2
  omega

end SignOfSubRaw

/-- Settles O55: the general fact, read off the boolean. -/
theorem pastRawAgreesWithTheSignOfSubRaw : Obligations.PastRawAgreesWithTheSignOfSubRaw := by
  unfold Obligations.PastRawAgreesWithTheSignOfSubRaw
  refine fun w t1 t2 ovf mx hc => ⟨_, _, (answers_pastRaw ..).mpr rfl, (answers_subRaw ..).mpr rfl, ?agree⟩
  rw [b2v_eq_one_iff]
  exact pastRaw_iff_subRaw_pos_iff (width_bits_pos w) hc

/-- Settles O56: sums and differences rotate; ahead or behind by less than the threshold, R70's two branches agree. -/
theorem rotationOfTheCircle : Obligations.RotationOfTheCircle := by
  unfold Obligations.RotationOfTheCircle
  refine ⟨fun w a b c k => ⟨⟨_, (answers_sub ..).mpr rfl, (answers_sub ..).mpr (add_sub_add_right_eq_sub a b c).symm⟩,
    ⟨_, (answers_add ..).mpr rfl, (answers_add ..).mpr (add_right_comm a k c)⟩, ?ahead, ?behind⟩, ?atThreshold,
    ?acrossTheWrap⟩
  case atThreshold => exact (answers_past_zero_iff (w := .w32)).mpr (by decide)
  case acrossTheWrap => exact (answers_past_one_iff (w := .w32)).mpr (by decide)
  case ahead =>
    intro h1 h2
    have hfull := two_pow_eq_two_mul_half (width_bits_pos w)
    have hdiff := sub_toNat_cases b a
    rw [answers_past_one_iff, past_iff _ _ (width_bits_pos w)]
    omega
  case behind =>
    intro h1 h2
    have hfull := two_pow_eq_two_mul_half (width_bits_pos w)
    have hdiff := sub_toNat_cases a b
    rw [answers_past_zero_iff, past_iff _ _ (width_bits_pos w)]
    omega

/-- An encoded operation is answered, through a whole step, by what the operation answers. -/
theorem answeredBy_encode {w : Width} {i : Instr} {v : BitVec w.bits} (h : Answers w i v) :
    AnsweredBy (encode i) (.of w v) :=
  answeredBy_of_decode (decode_encodeWith _ _ i) h

/-- Settles O51: each scenario is one operation's answer, through the encoder and a step. -/
theorem sixteenBitScenarios : Obligations.SixteenBitScenarios := by
  unfold Obligations.SixteenBitScenarios
  have run {i : Instr} {v : BitVec 16} (h : Answers .w16 i v) : AnsweredBy (encode i) (.w16 v) := answeredBy_encode h
  refine ⟨run ((answers_past .w16 ..).mpr ?_), run ((answers_past .w16 ..).mpr ?_),
    run ((answers_past .w16 ..).mpr ?_), run ((answers_past .w16 ..).mpr ?_),
    run ((answers_sub .w16 ..).mpr ?_), run ((answers_sub .w16 ..).mpr ?_),
    run ((answers_sub .w16 ..).mpr ?_), run ((answers_sub .w16 ..).mpr ?_),
    run ((answers_add .w16 ..).mpr ?_), run ((answers_add .w16 ..).mpr ?_),
    run ((answers_addRaw .w16 ..).mpr ?_), run ((answers_subRaw .w16 ..).mpr ?_)⟩ <;> decide

/-- Settles O58: each example at its own width. -/
theorem widthsAreNotInterchangeable : Obligations.WidthsAreNotInterchangeable := by
  unfold Obligations.WidthsAreNotInterchangeable
  refine ⟨(answers_sub .w32 ..).mpr ?_, (answers_past .w32 ..).mpr ?_, (answers_sub .w16 ..).mpr ?_,
    (answers_past .w16 ..).mpr ?_, (answers_subRaw .w32 ..).mpr ?_, (answers_pastRaw .w32 ..).mpr ?_⟩ <;> decide

end Sys2Proof.Machine
end
